-- ==== Sys2Proof/Word.lean ====
section
/-!
DEFINITION. The word types of the core: a byte and the two working widths (spec/00_scope.md R8, R9). Every value of
the core is an unsigned integer of a stated width, so a word is a bit vector, and its `+`, `-` and `*` wrap modulo 2^W
(R10).
-/

namespace Sys2Proof

/-- `u8`: one byte of a command, a payload, a buffer or a response (R9). -/
abbrev Byte := BitVec 8

/-- `u32`: the working width of CTX32 and of `CKSUM32` (R8). -/
abbrev U32 := BitVec 32

/-- `u64`: the working width of CTX64 and of `CKSUM64`, and the width of `LEN` and `total_length` (R8). -/
abbrev U64 := BitVec 64

end Sys2Proof
end

