-- ==== Sys2Proof/Config.lean ====
section
/-!
DEFINITION. What an implementation of the core fixes and the spec leaves OPEN (spec/00_scope.md R8). The one open
parameter that a rule depends on is `RSP_DEPTH`. `LATENCY` is open too, and no rule depends on it (R244), so the model,
which is untimed, has no place for it (log entry 3).
-/

namespace Sys2Proof

/-- By how much the response queue's capacity exceeds its least value, 1. No value of it can be proved: `RSP_DEPTH` is
OPEN, at least 1 (R8, R35; log entry 2). -/
opaque Config.rspDepthAboveOne : Nat

/-- `RSP_DEPTH`: how many responses the response queue holds (R8, R35). OPEN, at least 1. -/
def Config.rspDepth : Nat := Config.rspDepthAboveOne + 1

/-- The one thing the spec says of `RSP_DEPTH`: it is at least 1 (R8). -/
theorem Config.rspDepth_pos : 0 < Config.rspDepth := Nat.succ_pos _

end Sys2Proof
end

