-- ==== Sys2Proof/Syntax.lean ====
section
/-!
DEFINITION. The commands of the core as syntax: one constructor of `Instr` per row of spec/opcode_table.json, in the
table's order, with its operands (spec/30_encoding.md R72, R75 to R78); and the named sets an encoding is made of:
widths, operations, packet formats and command errors.
-/

namespace Sys2Proof

/-- The `W` field of a header: the 32-bit or the 64-bit variant (R71, R73). -/
inductive Width where
  | w32
  | w64
  deriving DecidableEq, Repr

/-- The `OP` field of a header, less the reserved value 000 (R72). -/
inductive Operation where
  | init
  | reset
  | write
  | sum
  | cksum
  | bsize
  | dsize
  deriving DecidableEq, Repr

/-- The four packet formats (R75). -/
inductive Format where
  | f0
  | f1
  | f2
  | f3
  deriving DecidableEq, Repr

/-- The two command errors, each raised by a malformed header byte only (spec/60_exceptions.md R210 to R213). -/
inductive CmdError where
  /-- `RSV = 0000` and `OP = 000` (R212). -/
  | errOpcode
  /-- `RSV ≠ 0000` (R211). -/
  | errReserved
  deriving DecidableEq, Repr

/-- A command with its operands. The payload of `WRITE` and `CKSUM` is the byte sequence `d = d[0..LEN)`; its `LEN`
field is the payload's length and is not kept a second time (R77, R78). -/
inductive Instr where
  /-- `INIT32 seed` (R140). -/
  | init32 (seed : U32)
  /-- `RESET32` (R142). -/
  | reset32
  /-- `WRITE32 data` (R160). -/
  | write32 (data : List Byte)
  /-- `SUM32` (R163). -/
  | sum32
  /-- `CKSUM32 seed, data` (R190). -/
  | cksum32 (seed : U32) (data : List Byte)
  /-- `BSIZE32` (R144). -/
  | bsize32
  /-- `DSIZE32` (R146). -/
  | dsize32
  /-- `INIT64 seed` (R141). -/
  | init64 (seed : U64)
  /-- `RESET64` (R143). -/
  | reset64
  /-- `WRITE64 data` (R161). -/
  | write64 (data : List Byte)
  /-- `SUM64` (R164). -/
  | sum64
  /-- `CKSUM64 seed, data` (R191). -/
  | cksum64 (seed : U64) (data : List Byte)
  /-- `BSIZE64` (R145). -/
  | bsize64
  /-- `DSIZE64` (R147). -/
  | dsize64
  deriving DecidableEq, Repr

end Sys2Proof
end

