-- ==== Sys2Proof/WellFormed.lean ====
section
/-!
DEFINITION. Which commands a packet can spell. No operand value is illegal (spec/30_encoding.md R81), so the one check is
that a payload's length fits the 64-bit `LEN` field: at most 2^64 - 1 bytes (spec/00_scope.md R8, R77).
-/

namespace Sys2Proof

/-- A payload's length fits the `LEN` field (R77). -/
def payloadFits (data : List Byte) : Bool := decide (data.length < 2 ^ 64)

/-- A command some packet spells: its payload, where it has one, has at most 2^64 - 1 bytes (R77, R81). -/
def Instr.wellFormed : Instr → Bool
  | .init32 _ => true
  | .reset32 => true
  | .write32 data => payloadFits data
  | .sum32 => true
  | .cksum32 _ data => payloadFits data
  | .bsize32 => true
  | .dsize32 => true
  | .init64 _ => true
  | .reset64 => true
  | .write64 data => payloadFits data
  | .sum64 => true
  | .cksum64 _ data => payloadFits data
  | .bsize64 => true
  | .dsize64 => true

end Sys2Proof
end

