-- ==== Sys2Proof/Decode.lean ====
section
/-!
DEFINITION. Command packets (spec/30_encoding.md sections 1 and 2): the header byte's fields, the packet's length, the
decoder, which is total on any bytes, and after it the encoder and the packets the opcode table's rows stand for.
-/

namespace Sys2Proof

/-! ## Byte order of operand fields -/

/-- The little-endian word of a byte sequence: its first byte is the least significant (spec/20_memory.md R52, R54). -/
def leWord (w : Nat) : List Byte → BitVec w
  | [] => 0
  | b :: bs => b.setWidth w + leWord w bs <<< 8

/-- `LE_n(v)`: the n-byte little-endian serialisation of `v` (R12). -/
def leBytes {w : Nat} : Nat → BitVec w → List Byte
  | 0, _ => []
  | n + 1, v => v.setWidth 8 :: leBytes n (v >>> 8)

/-! ## The header byte -/

/-- `OP = H[2:0]` (R71). -/
def headerOp (h : Byte) : BitVec 3 := h.extractLsb' 0 3

/-- `W = H[3]` (R71, R73). -/
def headerWidth (h : Byte) : Width := if h.getLsbD 3 then .w64 else .w32

/-- `RSV = H[7:4]` (R71). -/
def headerRsv (h : Byte) : BitVec 4 := h.extractLsb' 4 4

/-- The operation an `OP` value selects; 000 is reserved (R72). -/
def operationOf (op : BitVec 3) : Option Operation :=
  match op.toNat with
  | 1 => some .init
  | 2 => some .reset
  | 3 => some .write
  | 4 => some .sum
  | 5 => some .cksum
  | 6 => some .bsize
  | 7 => some .dsize
  | _ => none

/-- The one outcome of a header byte: a command error, or an operation and a width. `RSV` is checked first, so
ERR_RESERVED wins over ERR_OPCODE (R74, R81; spec/60_exceptions.md R213). -/
def decodeHeader (h : Byte) : Except CmdError (Operation × Width) :=
  if headerRsv h ≠ 0 then .error .errReserved
  else
    match operationOf (headerOp h) with
    | some op => .ok (op, headerWidth h)
    | none => .error .errOpcode

/-! ## Packet lengths -/

/-- The format an operation's packet has (R72, R75). -/
def formatOf : Operation → Format
  | .init => .f1
  | .reset => .f0
  | .write => .f2
  | .sum => .f0
  | .cksum => .f3
  | .bsize => .f0
  | .dsize => .f0

/-- `SW(W)`: the size of the `SEED` field in bytes (spec/00_scope.md R8, R73). -/
def seedSize : Width → Nat
  | .w32 => 4
  | .w64 => 8

/-- The `LEN` field at byte offset `off` of a packet, once its 8 bytes are there (R77). -/
def lenField (packet : List Byte) (off : Nat) : Option Nat :=
  if off + 8 ≤ packet.length then some (leWord 64 ((packet.drop off).take 8)).toNat else none

/-- The length of the packet that a byte stream begins with, as soon as the bytes that are there determine it (R79). -/
def packetLength (packet : List Byte) : Option Nat :=
  match packet with
  | [] => none
  | h :: _ =>
    match decodeHeader h with
    | .error _ => some 1
    | .ok (op, w) =>
      match formatOf op with
      | .f0 => some 1
      | .f1 => some (1 + seedSize w)
      | .f2 => (lenField packet 1).map (fun len => 9 + len)
      | .f3 => (lenField packet (1 + seedSize w)).map (fun len => 9 + seedSize w + len)

/-! ## The decoder -/

/-- What the parser makes of the unconsumed command bytes. -/
inductive Decoded where
  /-- Part of a packet, or nothing: the engine has no step (R80). -/
  | incomplete
  /-- A malformed header byte, which is a packet of its own, and the bytes after it (R74, R80). -/
  | malformed (e : CmdError) (rest : List Byte)
  /-- A whole packet's command, and the bytes after it (R70). -/
  | command (i : Instr) (rest : List Byte)
  deriving DecidableEq, Repr

/-- Takes a little-endian field of `w` bits from the front of the bytes (R76, R77). -/
def takeField (w : Nat) (bytes : List Byte) : Option (BitVec w × List Byte) :=
  if w / 8 ≤ bytes.length then some (leWord w (bytes.take (w / 8)), bytes.drop (w / 8)) else none

/-- Takes a `LEN` field and the payload of `LEN` bytes that follows it (R77, R78). -/
def takePayload (bytes : List Byte) : Option (List Byte × List Byte) :=
  match takeField 64 bytes with
  | none => none
  | some (len, rest) =>
    if len.toNat ≤ rest.length then some (rest.take len.toNat, rest.drop len.toNat) else none

/-- Format F1: a `SEED` field (R75, R76). -/
def decodeSeed (w : Nat) (make : BitVec w → Instr) (body : List Byte) : Decoded :=
  match takeField w body with
  | none => .incomplete
  | some (seed, rest) => .command (make seed) rest

/-- Format F2: a `LEN` field and the payload (R75, R77, R78). -/
def decodeData (make : List Byte → Instr) (body : List Byte) : Decoded :=
  match takePayload body with
  | none => .incomplete
  | some (data, rest) => .command (make data) rest

/-- Format F3: a `SEED` field, a `LEN` field and the payload (R75 to R78). -/
def decodeSeedData (w : Nat) (make : BitVec w → List Byte → Instr) (body : List Byte) : Decoded :=
  match takeField w body with
  | none => .incomplete
  | some (seed, rest) => decodeData (make seed) rest

/-- The operands of a well-formed header's packet (R72, R73, R75). -/
def decodeBody (op : Operation) (w : Width) (body : List Byte) : Decoded :=
  match op, w with
  | .init, .w32 => decodeSeed 32 .init32 body
  | .init, .w64 => decodeSeed 64 .init64 body
  | .reset, .w32 => .command .reset32 body
  | .reset, .w64 => .command .reset64 body
  | .write, .w32 => decodeData .write32 body
  | .write, .w64 => decodeData .write64 body
  | .sum, .w32 => .command .sum32 body
  | .sum, .w64 => .command .sum64 body
  | .cksum, .w32 => decodeSeedData 32 .cksum32 body
  | .cksum, .w64 => decodeSeedData 64 .cksum64 body
  | .bsize, .w32 => .command .bsize32 body
  | .bsize, .w64 => .command .bsize64 body
  | .dsize, .w32 => .command .dsize32 body
  | .dsize, .w64 => .command .dsize64 body

/-- The parser at a packet boundary (R70, R79 to R81). Total: a malformed header is rejected by its error's name, and
an unfinished packet is named as such. -/
def decode (bytes : List Byte) : Decoded :=
  match bytes with
  | [] => .incomplete
  | h :: body =>
    match decodeHeader h with
    | .error e => .malformed e body
    | .ok (op, w) => decodeBody op w body

/-! ## The encoder -/

/-- A payload with its `LEN` field before it (R77, R78). DESIGN CHOICE (log entry 11): of a payload of 2^64 bytes or more,
which no packet can spell, `LEN` is the length modulo 2^64 and the whole payload follows. -/
def encodeData (data : List Byte) : List Byte := leBytes 8 (BitVec.ofNat 64 data.length) ++ data

/-- The packet of a command: the header of R72, then the fields of R75. -/
def encode : Instr → List Byte
  | .init32 seed => 0x01 :: leBytes 4 seed
  | .reset32 => [0x02]
  | .write32 data => 0x03 :: encodeData data
  | .sum32 => [0x04]
  | .cksum32 seed data => 0x05 :: (leBytes 4 seed ++ encodeData data)
  | .bsize32 => [0x06]
  | .dsize32 => [0x07]
  | .init64 seed => 0x09 :: leBytes 8 seed
  | .reset64 => [0x0A]
  | .write64 data => 0x0B :: encodeData data
  | .sum64 => [0x0C]
  | .cksum64 seed data => 0x0D :: (leBytes 8 seed ++ encodeData data)
  | .bsize64 => [0x0E]
  | .dsize64 => [0x0F]

/-! ## The opcode table's rows as packets -/

/-- The bytes of the number `w` of `nbits` bits, first byte lowest, with zero bytes above them up to the 17 bytes of the
longest packet's header and operand fields (format F3 with `W = 1`, R75). -/
def tableBytes (nbits w : Nat) : List Byte := leBytes 17 (BitVec.ofNat 136 (w % 2 ^ nbits))

/-- The whole packet whose bits are `w`, every bit above `nbits` being 0: the bytes of `tableBytes`, cut to the packet's
length or filled up to it with zero payload bytes (R79). -/
def tablePacket (nbits w : Nat) : List Byte :=
  match packetLength (tableBytes nbits w) with
  | none => tableBytes nbits w
  | some n => (tableBytes nbits w ++ List.replicate (n - 17) 0).take n

/-- The command the decoder reads from the packet whose bits are `w` (the opcode table's numbering), or none where it
reads no command. -/
def decodeTableWord (nbits w : Nat) : Option Instr :=
  match decode (tablePacket nbits w) with
  | .command i _ => some i
  | .malformed _ _ => none
  | .incomplete => none

end Sys2Proof
end

