-- ==== Sys2Proof/Machine/State.lean ====
section
/-!
DEFINITION. The core's state (spec/10_state.md R20 to R37), its reasons to stop, and the state after power-on reset
(R36). The record is R37's, with the ghost phase of R31 added to each context. All of it is plain data.
-/

namespace Sys2Proof.Machine

/-- The four lane accumulators `v[1..4]` of a width (R22). -/
structure Lanes (w : Nat) where
  v1 : BitVec w
  v2 : BitVec w
  v3 : BitVec w
  v4 : BitVec w
  deriving DecidableEq, Repr

/-- The state machine's label of a context. Ghost state: no output depends on it (R31). -/
inductive Phase where
  /-- After power-on reset, `INIT` or `RESET`. -/
  | initialized
  /-- After any `WRITE`, one of length 0 included. -/
  | accumulating
  deriving DecidableEq, Repr

/-- A streaming context of working width `w` (R22). -/
structure Ctx (w : Nat) where
  /-- The ghost phase (R31). It stands first so that comparing two contexts is settled early. -/
  phase : Phase
  /-- The stored seed: only `INIT` writes it (R23). -/
  seed : BitVec w
  /-- The lanes (R24). -/
  v : Lanes w
  /-- The 64-bit count of all bytes ever passed to `WRITE` (R25). -/
  totalLength : U64
  /-- The valid bytes of the partial-block buffer, oldest first (R26). -/
  buf : List Byte
  deriving DecidableEq, Repr

/-- A state a correct core cannot reach (spec/60_exceptions.md R214). -/
inductive InvariantFault where
  /-- The context of this width has `len(buf) >= BS(W)`, against R27 (a). -/
  | contextBufferFull (width : Width)
  /-- A byte-reader call with `i + n > len(src)` (spec/20_memory.md R52). -/
  | readerOutOfRange
  deriving DecidableEq, Repr

/-- Why the engine has no step. -/
inductive Fault where
  /-- Raised by `step` while the command port holds nothing, or only part of a packet (spec/30_encoding.md R80,
  spec/60_exceptions.md R215). A stuck state, not an error: bytes from the host lift it. Safe: the hardware has no step
  there either. -/
  | heldIncompletePacket
  /-- Raised by `step` while the response queue holds `RSP_DEPTH` responses (spec/70_reset_and_hazards.md R246, R215). A
  stuck state, not an error: a response taken by the host lifts it. Safe: the hardware has no step there either. -/
  | heldResponseQueueFull
  /-- Raised by `step` in a state that has an invariant fault recorded (R214, R249): the run is faulted for good. Safe:
  the model stops where no correct core ever is. -/
  | invariantFault (what : InvariantFault)
  deriving DecidableEq, Repr

/-- Why an instruction has no meaning. -/
inductive Refusal where
  /-- Raised by `exec`'s arm of an instruction that has no meaning in the model; no arm raises it. Safe. -/
  | notModelled (mnemonic : String)
  deriving DecidableEq, Repr

/-- The core (R37). Not in it, because the spec gives them no architectural value: the one-shot scratch (R33) and the
buffer storage beyond the valid bytes (R26). The read-only constants and the prime ROM (R32) are definitions. -/
structure State where
  /-- CTX32 (R22). -/
  ctx32 : Ctx 32
  /-- CTX64 (R22). -/
  ctx64 : Ctx 64
  /-- The command bytes that have arrived and are not yet consumed, oldest first (R34, R37). -/
  cmdIn : List Byte
  /-- The response packets not yet taken by the host, oldest first (R35, R37). -/
  rspOut : List (List Byte)
  /-- The model's record of an invariant fault (R37, R214). -/
  fault : Option InvariantFault
  deriving DecidableEq, Repr

/-- The core right after power-on reset (R36). -/
def State.reset : State where
  ctx32 :=
    { seed := 0x00000000
      v := { v1 := 0x24234428, v2 := 0x85EBCA77, v3 := 0x00000000, v4 := 0x61C8864F }
      totalLength := 0
      buf := []
      phase := .initialized }
  ctx64 :=
    { seed := 0x0000000000000000
      v := { v1 := 0x60EA27EEADC0B5D6, v2 := 0xC2B2AE3D27D4EB4F, v3 := 0x0000000000000000, v4 := 0x61C8864E7A143579 }
      totalLength := 0
      buf := []
      phase := .initialized }
  cmdIn := []
  rspOut := []
  fault := none

end Sys2Proof.Machine
end

