-- ==== Sys2Proof/Machine/Flags.lean ====
section
/-!
DEFINITION. The core has no flags, condition codes or predicates, and no status is stored (spec/10_state.md R30). What a
command reports of itself is its response's status byte (spec/30_encoding.md R85), and that is all this file holds.
-/

namespace Sys2Proof.Machine

/-- The three statuses of a response (R85). -/
inductive Status where
  | ok
  | error (e : CmdError)
  deriving DecidableEq, Repr

/-- The status byte: 0x00 OK, 0x01 ERR_OPCODE, 0x02 ERR_RESERVED (R85). -/
def statusByte : Status → Byte
  | .ok => 0x00
  | .error .errOpcode => 0x01
  | .error .errReserved => 0x02

end Sys2Proof.Machine
end

