-- ==== Sys2Proof/Machine/Operands.lean ====
section
/-!
DEFINITION. The sizes that go with a width, the byte reader (spec/20_memory.md R52), and the byte order of response
values (R57).
-/

namespace Sys2Proof.Machine

/-- `BS(W)`: the block size in bytes, the read-only constants `BLOCK_SIZE32` and `BLOCK_SIZE64` (spec/00_scope.md R8,
spec/10_state.md R32). -/
def blockSize : Width → Nat
  | .w32 => 16
  | .w64 => 32

/-- `DS(W)`: the digest size in bytes, the read-only constants `DIGEST_SIZE32` and `DIGEST_SIZE64` (R8, R32). -/
def digestSize : Width → Nat
  | .w32 => 4
  | .w64 => 8

/-- `MemRead(src, i, w / 8)`: the little-endian word of `w` bits at offset `i`, which may be any offset. Outside `src`
it raises the reader's invariant fault (R52, R54, R58). With `w = 8` it is the single byte `src[i]`. -/
def memRead (w : Nat) (src : List Byte) (i : Nat) : Except InvariantFault (BitVec w) :=
  if i + w / 8 ≤ src.length then .ok (leWord w ((src.drop i).take (w / 8))) else .error .readerOutOfRange

/-- `BE_n(v)`: the n-byte big-endian serialisation of `v`, most significant byte first (spec/00_scope.md R12, R57). -/
def beBytes {w : Nat} (n : Nat) (v : BitVec w) : List Byte := (leBytes n v).reverse

/-- `LEN` of a payload: its length as the u64 of the `LEN` field (spec/30_encoding.md R77). -/
def lenOf (data : List Byte) : U64 := BitVec.ofNat 64 data.length

end Sys2Proof.Machine
end

