-- ==== Sys2Proof/Machine/Mixing.lean ====
section
/-!
DEFINITION. The mixing datapath (spec/40_mixing_functions.md R100 to R123): the prime ROM, rotation, the round and merge
round, lane initialisation, the block-accumulation barrel, convergence, the tail loops, the avalanche and the two
mixers. Every function is pure. One that reads bytes answers in `Except InvariantFault`, because the byte reader is
bounds-checked (spec/20_memory.md R52).
-/

namespace Sys2Proof.Machine

/-! ## The prime ROM and rotation -/

/-- P32_1 (R100). -/
def P32_1 : U32 := 0x9E3779B1
/-- P32_2 (R100). -/
def P32_2 : U32 := 0x85EBCA77
/-- P32_3 (R100). -/
def P32_3 : U32 := 0xC2B2AE3D
/-- P32_4 (R100). -/
def P32_4 : U32 := 0x27D4EB2F
/-- P32_5 (R100). -/
def P32_5 : U32 := 0x165667B1
/-- P64_1 (R101). -/
def P64_1 : U64 := 0x9E3779B185EBCA87
/-- P64_2 (R101). -/
def P64_2 : U64 := 0xC2B2AE3D27D4EB4F
/-- P64_3 (R101). -/
def P64_3 : U64 := 0x165667B19E3779F9
/-- P64_4 (R101). -/
def P64_4 : U64 := 0x85EBCA77C2B2AE63
/-- P64_5 (R101). -/
def P64_5 : U64 := 0x27D4EB2F165667C5

/-- `rotl_W(x, r)`, for `0 < r < W` (R102). -/
def rotl {w : Nat} (x : BitVec w) (r : Nat) : BitVec w := x <<< r ||| x >>> (w - r)

/-! ## Round, merge round and lane initialisation -/

/-- One XXH32 lane mixed with one input word (R103). -/
def round32 (v x : U32) : U32 := rotl (v + x * P32_2) 13 * P32_1

/-- One XXH64 lane mixed with one input word (R104). -/
def round64 (v x : U64) : U64 := rotl (v + x * P64_2) 31 * P64_1

/-- Folds one XXH64 lane into the converged hash (R105). -/
def mergeRound64 (h v : U64) : U64 := (h ^^^ rotl (v * P64_2) 31 * P64_1) * P64_1 + P64_4

/-- The XXH32 lane initial values for a seed (R106). -/
def init32 (s : U32) : Lanes 32 := { v1 := s + P32_1 + P32_2, v2 := s + P32_2, v3 := s, v4 := s - P32_1 }

/-- The XXH64 lane initial values for a seed (R107). -/
def init64 (s : U64) : Lanes 64 := { v1 := s + P64_1 + P64_2, v2 := s + P64_2, v3 := s, v4 := s - P64_1 }

/-! ## The block-accumulation barrel -/

/-- One block: lane `k` is mixed with the `k`-th little-endian word of the block at offset `o` (R108, R109). -/
def mixBlock {w : Nat} (round : BitVec w → BitVec w → BitVec w) (v : Lanes w) (b : List Byte) (o : Nat) :
    Except InvariantFault (Lanes w) := do
  let x1 ← memRead w b o
  let x2 ← memRead w b (o + w / 8)
  let x3 ← memRead w b (o + 2 * (w / 8))
  let x4 ← memRead w b (o + 3 * (w / 8))
  pure { v1 := round v.v1 x1, v2 := round v.v2 x2, v3 := round v.v3 x3, v4 := round v.v4 x4 }

/-- `block32(v, b, o)` (R108). -/
def block32 (v : Lanes 32) (b : List Byte) (o : Nat) : Except InvariantFault (Lanes 32) := mixBlock round32 v b o

/-- `block64(v, b, o)` (R109). -/
def block64 (v : Lanes 64) (b : List Byte) (o : Nat) : Except InvariantFault (Lanes 64) := mixBlock round64 v b o

/-- `while len(d) - i >= n: a <- stepAt(a, d, i); i <- i + n`, the one shape of the absorb loop and of every tail loop
(R110, R119). Each turn consumes `n ≥ 1` bytes, so `len(d)` turns of fuel are enough (spec/00_scope.md R13). -/
def chunkLoop {α : Type} (n : Nat) (stepAt : α → List Byte → Nat → Except InvariantFault α) (d : List Byte) :
    (fuel : Nat) → α → Nat → Except InvariantFault (α × Nat)
  | 0, a, i => pure (a, i)
  | fuel + 1, a, i =>
    if i + n ≤ d.length then do
      let a' ← stepAt a d i
      chunkLoop n stepAt d fuel a' (i + n)
    else pure (a, i)

/-- `absorb_32(v, d)`: every complete block of `d` in order; answers the lanes and the offset of the first byte not
consumed (R110). -/
def absorb32 (v : Lanes 32) (d : List Byte) : Except InvariantFault (Lanes 32 × Nat) :=
  chunkLoop (blockSize .w32) block32 d d.length v 0

/-- `absorb_64(v, d)` (R110). -/
def absorb64 (v : Lanes 64) (d : List Byte) : Except InvariantFault (Lanes 64 × Nat) :=
  chunkLoop (blockSize .w64) block64 d d.length v 0

/-! ## Convergence and the start value -/

/-- The sum of the rotated lanes (R111, R112). -/
def convergeSum {w : Nat} (v : Lanes w) : BitVec w := rotl v.v1 1 + rotl v.v2 7 + rotl v.v3 12 + rotl v.v4 18

/-- `converge32(v)` (R111). -/
def converge32 (v : Lanes 32) : U32 := convergeSum v

/-- `converge64(v)`: the sum, then the four lanes merged in order (R112). -/
def converge64 (v : Lanes 64) : U64 :=
  mergeRound64 (mergeRound64 (mergeRound64 (mergeRound64 (convergeSum v) v.v1) v.v2) v.v3) v.v4

/-- The XXH32 hash before the tail: convergence or small-input base, chosen by the full 64-bit length, plus the length's
low 32 bits (R113, R122). -/
def start32 (v : Lanes 32) (seed : U32) (n : U64) : U32 :=
  (if blockSize .w32 ≤ n.toNat then converge32 v else seed + P32_5) + n.setWidth 32

/-- The XXH64 hash before the tail (R113, R123). -/
def start64 (v : Lanes 64) (seed : U64) (n : U64) : U64 :=
  (if blockSize .w64 ≤ n.toNat then converge64 v else seed + P64_5) + n

/-! ## The tail steps -/

/-- The XXH32 4-byte tail step (R114). -/
def tailWord32 (h w : U32) : U32 := rotl (h + w * P32_3) 17 * P32_4

/-- The XXH32 1-byte tail step (R115). -/
def tailByte32 (h : U32) (c : Byte) : U32 := rotl (h + c.setWidth 32 * P32_5) 11 * P32_1

/-- The XXH64 8-byte tail step (R116). -/
def tailLong64 (h w : U64) : U64 := rotl (h ^^^ round64 0 w) 27 * P64_1 + P64_4

/-- The XXH64 4-byte tail step: the word is widened before the product (R117). -/
def tailWord64 (h : U64) (w : U32) : U64 := rotl (h ^^^ w.setWidth 64 * P64_1) 23 * P64_2 + P64_3

/-- The XXH64 1-byte tail step (R118). -/
def tailByte64 (h : U64) (c : Byte) : U64 := rotl (h ^^^ c.setWidth 64 * P64_5) 11 * P64_1

/-- A tail step with its operand read from the tail `t` at offset `i` (R114 to R118). -/
def tailAt {w : Nat} (n : Nat) (mix : BitVec w → BitVec n → BitVec w) (h : BitVec w) (t : List Byte) (i : Nat) :
    Except InvariantFault (BitVec w) := do
  let x ← memRead n t i
  pure (mix h x)

/-- `tail32(h, t)`: 4-byte steps, then 1-byte steps (R119). -/
def tail32 (h : U32) (t : List Byte) : Except InvariantFault U32 := do
  let (h, i) ← chunkLoop 4 (tailAt 32 tailWord32) t t.length h 0
  let (h, _) ← chunkLoop 1 (tailAt 8 tailByte32) t t.length h i
  pure h

/-- `tail64(h, t)`: 8-byte steps, then 4-byte steps, then 1-byte steps (R119). -/
def tail64 (h : U64) (t : List Byte) : Except InvariantFault U64 := do
  let (h, i) ← chunkLoop 8 (tailAt 64 tailLong64) t t.length h 0
  let (h, i) ← chunkLoop 4 (tailAt 32 tailWord64) t t.length h i
  let (h, _) ← chunkLoop 1 (tailAt 8 tailByte64) t t.length h i
  pure h

/-! ## The avalanche and the mixers -/

/-- `avalanche32(h)` (R120). -/
def avalanche32 (h : U32) : U32 :=
  let h := h ^^^ h >>> 15
  let h := h * P32_2
  let h := h ^^^ h >>> 13
  let h := h * P32_3
  h ^^^ h >>> 16

/-- `avalanche64(h)` (R121). -/
def avalanche64 (h : U64) : U64 :=
  let h := h ^^^ h >>> 33
  let h := h * P64_2
  let h := h ^^^ h >>> 29
  let h := h * P64_3
  h ^^^ h >>> 32

/-- `mix32(v, seed, n, t)`: the XXH32 finaliser (R122). -/
def mix32 (v : Lanes 32) (seed : U32) (n : U64) (t : List Byte) : Except InvariantFault U32 := do
  let h ← tail32 (start32 v seed n) t
  pure (avalanche32 h)

/-- `mix64(v, seed, n, t)`: the XXH64 finaliser (R123). -/
def mix64 (v : Lanes 64) (seed : U64) (n : U64) (t : List Byte) : Except InvariantFault U64 := do
  let h ← tail64 (start64 v seed n) t
  pure (avalanche64 h)

end Sys2Proof.Machine
end

