-- ==== Sys2Proof/Machine/Ops.lean ====
section
/-!
DEFINITION. The named operations of the core: the response port, the two ways a packet ends without its command's
effect (a command error, an invariant fault), the one store into a context's buffer, what a command's result does to the
state, and fetching a packet from the command port.
-/

namespace Sys2Proof.Machine

/-! ## The response port -/

/-- `respond(status, bytes)`: one response packet, after those already in the queue (spec/30_encoding.md R84, R86). -/
def respond (s : State) (status : Status) (value : List Byte) : State :=
  { s with rspOut := s.rspOut ++ [statusByte status :: value] }

/-- The response queue holds `RSP_DEPTH` responses, so the engine starts no command (spec/10_state.md R35,
spec/70_reset_and_hazards.md R246). -/
def queueFull (s : State) : Bool := decide (Config.rspDepth ≤ s.rspOut.length)

/-! ## Errors -/

/-- `raise CmdError(code)`: consume exactly the header byte and answer with the error's status byte; nothing else
changes (spec/60_exceptions.md R210). There is no trap entry and so no return: the engine goes on with the next byte as
a header (R218, R219). -/
def raiseCmdError (s : State) (e : CmdError) : State := respond { s with cmdIn := s.cmdIn.drop 1 } (.error e) []

/-- `raise InvariantFault(what)`: the model records it in the fault field; there is no response (R214). -/
def recordFault (s : State) (what : InvariantFault) : State := { s with fault := some what }

/-! ## Context state -/

/-- The context keeps R27 (a), `len(buf) < BS(W)`; if not, the context's invariant fault (R214). -/
def checkBuf {w : Nat} (W : Width) (ctx : Ctx w) : Except InvariantFault Unit :=
  if ctx.buf.length < blockSize W then .ok () else .error (.contextBufferFull W)

/-- `MemWrite(ctx.buf, bytes)`: the only byte store in the core, of fewer than `BS(W)` bytes (spec/00_scope.md R12). -/
def memWrite {w : Nat} (W : Width) (ctx : Ctx w) (bytes : List Byte) : Except InvariantFault (Ctx w) :=
  if bytes.length < blockSize W then .ok { ctx with buf := bytes } else .error (.contextBufferFull W)

/-- The first context, CTX32 before CTX64, that breaks R27 (a), as the fault the model treats such a state as (R214; log
entry 5 for the order). -/
def brokenContext (s : State) : Option InvariantFault :=
  if blockSize .w32 ≤ s.ctx32.buf.length then some (.contextBufferFull .w32)
  else if blockSize .w64 ≤ s.ctx64.buf.length then some (.contextBufferFull .w64)
  else none

/-! ## What a command's result does to the state -/

/-- The end of a command that stores a context: on a result, the context is stored and the response is OK with the value
bytes; an invariant fault is recorded instead (R84, R86, R214). -/
def finish (s : State) (result : Except InvariantFault State) (value : List Byte) :
    Host.Outcome State Fault Refusal :=
  match result with
  | .ok t => .next (respond t .ok value)
  | .error what => .next (recordFault s what)

/-- The end of a command that only answers a digest of `n` bytes, most significant byte first: no state changes but the
response queue (R57, R86). -/
def answerDigest {w : Nat} (s : State) (n : Nat) (digest : Except InvariantFault (BitVec w)) :
    Host.Outcome State Fault Refusal :=
  match digest with
  | .ok h => .next (respond s .ok (beBytes n h))
  | .error what => .next (recordFault s what)

/-! ## Fetching a packet -/

/-- What the engine finds when it looks for its next packet. -/
inductive Fetched where
  /-- The engine has no step. -/
  | stopped (why : Fault)
  /-- The state breaks R27 (a), which is not yet recorded. -/
  | broken (what : InvariantFault)
  /-- A malformed header byte is next. -/
  | malformed (e : CmdError)
  /-- A whole packet is next: its command, and the state with the packet consumed. -/
  | command (i : Instr) (s : State)
  deriving DecidableEq, Repr

/-- The engine at a packet boundary: a faulted state has no step for good (R214, R249), one that breaks R27 (a) is found
so, a full response queue holds the engine (R246), and then the parser's answer counts (spec/30_encoding.md R70, R80;
log entry 5 for the order). -/
def fetch (s : State) : Fetched :=
  match s.fault with
  | some what => .stopped (.invariantFault what)
  | none =>
    match brokenContext s with
    | some what => .broken what
    | none =>
      if queueFull s then .stopped .heldResponseQueueFull
      else
        match decode s.cmdIn with
        | .incomplete => .stopped .heldIncompletePacket
        | .malformed e _ => .malformed e
        | .command i rest => .command i { s with cmdIn := rest }

end Sys2Proof.Machine
end

