-- ==== Sys2Proof/Machine/Context.lean ====
section
/-!
DEFINITION. The context commands `INIT`, `RESET`, `BSIZE` and `DSIZE` (spec/41_context_commands.md R140 to R147).
-/

namespace Sys2Proof.Machine

/-- The state `new(seed)` gives a context: the lane initial values, length 0, an empty buffer (spec/10_state.md R22,
R36). -/
def newCtx {w : Nat} (lanes : BitVec w → Lanes w) (seed : BitVec w) : Ctx w :=
  { seed := seed, v := lanes seed, totalLength := 0, buf := [], phase := .initialized }

/-- `INIT32 seed` (R140). -/
def execInit32 (seed : U32) (s : State) : Host.Outcome State Fault Refusal :=
  .next (respond { s with ctx32 := newCtx init32 seed } .ok [])

/-- `INIT64 seed` (R141). -/
def execInit64 (seed : U64) (s : State) : Host.Outcome State Fault Refusal :=
  .next (respond { s with ctx64 := newCtx init64 seed } .ok [])

/-- `RESET32`: CTX32 as `new` of its stored seed leaves it (R142). -/
def execReset32 (s : State) : Host.Outcome State Fault Refusal :=
  .next (respond { s with ctx32 := newCtx init32 s.ctx32.seed } .ok [])

/-- `RESET64`: CTX64 as `new` of its stored seed leaves it (R143). -/
def execReset64 (s : State) : Host.Outcome State Fault Refusal :=
  .next (respond { s with ctx64 := newCtx init64 s.ctx64.seed } .ok [])

/-- The end of a size query: one value byte (spec/30_encoding.md R86). -/
def answerSize (s : State) (size : Nat) : Host.Outcome State Fault Refusal :=
  .next (respond s .ok [BitVec.ofNat 8 size])

/-- `BSIZE32` (R144). -/
def execBsize32 (s : State) : Host.Outcome State Fault Refusal := answerSize s (blockSize .w32)

/-- `BSIZE64` (R145). -/
def execBsize64 (s : State) : Host.Outcome State Fault Refusal := answerSize s (blockSize .w64)

/-- `DSIZE32` (R146). -/
def execDsize32 (s : State) : Host.Outcome State Fault Refusal := answerSize s (digestSize .w32)

/-- `DSIZE64` (R147). -/
def execDsize64 (s : State) : Host.Outcome State Fault Refusal := answerSize s (digestSize .w64)

end Sys2Proof.Machine
end

