-- ==== Sys2Proof/Machine/OneShot.lean ====
section
/-!
DEFINITION. The one-shot commands `CKSUM` (spec/43_oneshot_commands.md R190, R191). Their scratch lanes, hash and offset
are local values here: no rule reads them across commands (spec/10_state.md R33).
-/

namespace Sys2Proof.Machine

/-- The one-shot XXH32 digest of a byte sequence for a seed (R190). -/
def checksum32 (seed : U32) (d : List Byte) : Except InvariantFault U32 := do
  let (v, i) ← absorb32 (init32 seed) d
  mix32 v seed (lenOf d) (d.drop i)

/-- The one-shot XXH64 digest of a byte sequence for a seed (R191). -/
def checksum64 (seed : U64) (d : List Byte) : Except InvariantFault U64 := do
  let (v, i) ← absorb64 (init64 seed) d
  mix64 v seed (lenOf d) (d.drop i)

/-- `CKSUM32 seed, data` (R190): no context is read or written (R192). -/
def execCksum32 (seed : U32) (data : List Byte) (s : State) : Host.Outcome State Fault Refusal :=
  answerDigest s (digestSize .w32) (checksum32 seed data)

/-- `CKSUM64 seed, data` (R191): no context is read or written (R192). -/
def execCksum64 (seed : U64) (data : List Byte) (s : State) : Host.Outcome State Fault Refusal :=
  answerDigest s (digestSize .w64) (checksum64 seed data)

end Sys2Proof.Machine
end

