-- ==== Sys2Proof/Machine/Stream.lean ====
section
/-!
DEFINITION. The streaming commands `WRITE` and `SUM` (spec/42_stream_commands.md R160 to R164).
-/

namespace Sys2Proof.Machine

/-- The fill step of `WRITE`: a partly filled buffer is completed from the head of the payload and mixed as one block,
buffered bytes first (spec/20_memory.md R56). Answers the lanes and how many payload bytes were taken. -/
def fillBlock {w : Nat} (W : Width) (block : Lanes w → List Byte → Nat → Except InvariantFault (Lanes w))
    (ctx : Ctx w) (d : List Byte) : Except InvariantFault (Lanes w × Nat) :=
  if ctx.buf.length = 0 then pure (ctx.v, 0)
  else do
    let i := blockSize W - ctx.buf.length
    let v ← block ctx.v (ctx.buf ++ d.take i) 0
    pure (v, i)

/-- `WRITE` on a context: the counter, then either an append with no lane mixing, or the fill step, the complete blocks
of what remains, and the rest into the buffer. The test compares exact byte counts (R160 to R162). -/
def writeCtx {w : Nat} (W : Width) (block : Lanes w → List Byte → Nat → Except InvariantFault (Lanes w))
    (absorb : Lanes w → List Byte → Except InvariantFault (Lanes w × Nat))
    (ctx : Ctx w) (d : List Byte) : Except InvariantFault (Ctx w) := do
  checkBuf W ctx
  let counted := { ctx with totalLength := ctx.totalLength + lenOf d, phase := .accumulating }
  if counted.buf.length + d.length < blockSize W then
    memWrite W counted (counted.buf ++ d)
  else
    let (v, i) ← fillBlock W block counted d
    let (v, j) ← absorb v (d.drop i)
    memWrite W { counted with v := v } (d.drop (i + j))

/-- `WRITE32 data` (R160): the response counts the payload bytes, all of them consumed. -/
def execWrite32 (data : List Byte) (s : State) : Host.Outcome State Fault Refusal :=
  finish s ((writeCtx .w32 block32 absorb32 s.ctx32 data).map fun ctx => { s with ctx32 := ctx })
    (beBytes 8 (lenOf data))

/-- `WRITE64 data` (R161). -/
def execWrite64 (data : List Byte) (s : State) : Host.Outcome State Fault Refusal :=
  finish s ((writeCtx .w64 block64 absorb64 s.ctx64 data).map fun ctx => { s with ctx64 := ctx })
    (beBytes 8 (lenOf data))

/-- `SUM` on a context: the mixer on a copy of the lanes and on exactly the buffered bytes; nothing is stored (R163,
R164). -/
def sumCtx {w : Nat} (W : Width)
    (mix : Lanes w → BitVec w → U64 → List Byte → Except InvariantFault (BitVec w))
    (ctx : Ctx w) : Except InvariantFault (BitVec w) := do
  checkBuf W ctx
  mix ctx.v ctx.seed ctx.totalLength ctx.buf

/-- `SUM32` (R163). -/
def execSum32 (s : State) : Host.Outcome State Fault Refusal :=
  answerDigest s (digestSize .w32) (sumCtx .w32 mix32 s.ctx32)

/-- `SUM64` (R164). -/
def execSum64 (s : State) : Host.Outcome State Fault Refusal :=
  answerDigest s (digestSize .w64) (sumCtx .w64 mix64 s.ctx64)

end Sys2Proof.Machine
end

