-- ==== Sys2Proof/Machine/Dispatch.lean ====
section
/-! DEFINITION. `exec`: each command's meaning, one arm per constructor of `Instr`, in the opcode table's order. -/

namespace Sys2Proof.Machine

def exec (i : Instr) (s : State) : Host.Outcome State Fault Refusal :=
  match i with
  | .init32 seed => Sys2Proof.Machine.execInit32 seed s
  | .reset32 => Sys2Proof.Machine.execReset32 s
  | .write32 data => Sys2Proof.Machine.execWrite32 data s
  | .sum32 => Sys2Proof.Machine.execSum32 s
  | .cksum32 seed data => Sys2Proof.Machine.execCksum32 seed data s
  | .bsize32 => Sys2Proof.Machine.execBsize32 s
  | .dsize32 => Sys2Proof.Machine.execDsize32 s
  | .init64 seed => Sys2Proof.Machine.execInit64 seed s
  | .reset64 => Sys2Proof.Machine.execReset64 s
  | .write64 data => Sys2Proof.Machine.execWrite64 data s
  | .sum64 => Sys2Proof.Machine.execSum64 s
  | .cksum64 seed data => Sys2Proof.Machine.execCksum64 seed data s
  | .bsize64 => Sys2Proof.Machine.execBsize64 s
  | .dsize64 => Sys2Proof.Machine.execDsize64 s

end Sys2Proof.Machine
end

