-- ==== Sys2Proof/Machine/Step.lean ====
section
/-!
DEFINITION. One step of the command engine: one command packet, in arrival order (spec/00_scope.md R7,
spec/20_memory.md R63). The engine has no program counter (spec/10_state.md R21): it takes its next packet from the
front of the unconsumed command bytes.
-/

namespace Sys2Proof.Machine

/-- One step of the engine. -/
def step (s : State) : Host.Outcome State Fault Refusal :=
  match fetch s with
  | .stopped why => .fault why
  | .broken what => .next (recordFault s what)
  | .malformed e => .next (raiseCmdError s e)
  | .command i consumed => exec i consumed

/-- The state with the packet whose bits are `w` (the opcode table's numbering) next on the command port, before any
byte already there: what the host does to have a command run (spec/70_reset_and_hazards.md R247; log entry 4). -/
def State.withFetchWord (s : State) (nbits w : Nat) : State :=
  { s with cmdIn := tablePacket nbits w ++ s.cmdIn }

end Sys2Proof.Machine
end

