-- ==== Sys2Proof/Machine/Assembler.lean ====
section
/-!
DEFINITION. The assembler of spec/30_encoding.md R89 to R91: statements, their expansion into commands, the bytes they
put on the command stream, and the parser of their text. No command's meaning depends on this file.
-/

namespace Sys2Proof.Machine

/-! ## Statements and their bytes -/

/-- A data operand (R90). -/
inductive AsmData where
  /-- A string or hex literal: its bytes. -/
  | literal (bytes : List Byte)
  /-- `rep(n, data)`. -/
  | rep (n : Nat) (data : AsmData)
  deriving DecidableEq, Repr

/-- The bytes a data operand stands for (R90). `rep` can spell more than `LEN` can count (log entry 11). -/
def asmBytes : AsmData → List Byte
  | .literal bytes => bytes
  | .rep n data => (List.replicate n (asmBytes data)).flatten

/-- A statement: a command, a pseudo-instruction or the directive `.byte` (R89, R91). -/
inductive AsmStmt where
  /-- One of the 14 mnemonics with its operands. -/
  | command (i : Instr)
  /-- `NEW32 seed`. -/
  | new32 (seed : U32)
  /-- `NEW64 seed`. -/
  | new64 (seed : U64)
  /-- `CKSUM32 data`, the seed omitted. -/
  | cksum32Unseeded (data : List Byte)
  /-- `CKSUM64 data`, the seed omitted. -/
  | cksum64Unseeded (data : List Byte)
  /-- `HASH32 seed, data`. -/
  | hash32 (seed : U32) (data : List Byte)
  /-- `HASH64 seed, data`. -/
  | hash64 (seed : U64) (data : List Byte)
  /-- `.byte b, …`: bytes put into the stream verbatim. -/
  | byte (bytes : List Byte)
  deriving DecidableEq, Repr

/-- The commands a statement expands to; `.byte` expands to none (R91). -/
def asmExpand : AsmStmt → List Instr
  | .command i => [i]
  | .new32 seed => [.init32 seed]
  | .new64 seed => [.init64 seed]
  | .cksum32Unseeded data => [.cksum32 0 data]
  | .cksum64Unseeded data => [.cksum64 0 data]
  | .hash32 seed data => [.init32 seed, .write32 data, .sum32]
  | .hash64 seed data => [.init64 seed, .write64 data, .sum64]
  | .byte _ => []

/-- The bytes a statement puts into the command stream: the packets of its commands, or the bytes of `.byte` (R91). A data
operand of 2^64 bytes or more is not refused (log entry 11). -/
def assemble : AsmStmt → List Byte
  | .byte bytes => bytes
  | .command i => encode i
  | .new32 seed => (asmExpand (.new32 seed)).flatMap encode
  | .new64 seed => (asmExpand (.new64 seed)).flatMap encode
  | .cksum32Unseeded data => (asmExpand (.cksum32Unseeded data)).flatMap encode
  | .cksum64Unseeded data => (asmExpand (.cksum64Unseeded data)).flatMap encode
  | .hash32 seed data => (asmExpand (.hash32 seed data)).flatMap encode
  | .hash64 seed data => (asmExpand (.hash64 seed data)).flatMap encode

/-! ## Text: characters, numbers and data operands -/

/-- The double quote that opens and closes a literal. -/
def asmQuote : Char := Char.ofNat 0x22

/-- White space between the parts of a statement. -/
def asmBlank (c : Char) : Bool := c == ' ' || c == '\t' || c == '\r'

/-- The text after leading white space. -/
def skipBlanks (cs : List Char) : List Char := cs.dropWhile asmBlank

/-- The value of a digit in a base of at most 16; hexadecimal letters of either case. -/
def digitValue (base : Nat) (c : Char) : Option Nat :=
  let v :=
    if '0' ≤ c ∧ c ≤ '9' then c.toNat - 0x30
    else if 'A' ≤ c ∧ c ≤ 'F' then c.toNat - 0x37
    else if 'a' ≤ c ∧ c ≤ 'f' then c.toNat - 0x57
    else 16
  if v < base then some v else none

/-- The longest run of digits, at least one, and the text after it. -/
def parseDigits (base : Nat) : List Char → (acc : Nat) → (any : Bool) → Option (Nat × List Char)
  | [], acc, any => if any then some (acc, []) else none
  | c :: cs, acc, any =>
    match digitValue base c with
    | some v => parseDigits base cs (acc * base + v) true
    | none => if any then some (acc, c :: cs) else none

/-- An unsigned integer, decimal or `0x`-prefixed hexadecimal, below `2^w` (R89). -/
def parseNumber (w : Nat) (cs : List Char) : Option (BitVec w × List Char) :=
  let digits :=
    match cs with
    | '0' :: 'x' :: hex => parseDigits 16 hex 0 false
    | other => parseDigits 10 other 0 false
  match digits with
  | some (n, rest) => if n < 2 ^ w then some (BitVec.ofNat w n, rest) else none
  | none => none

/-- Two hexadecimal digits as a byte. -/
def hexPair (hi lo : Char) : Option Byte :=
  match digitValue 16 hi, digitValue 16 lo with
  | some h, some l => some (BitVec.ofNat 8 (16 * h + l))
  | _, _ => none

/-- A byte put before a literal's later bytes. -/
def consByte (b : Option Byte) (later : Option (List Byte × List Char)) : Option (List Byte × List Char) :=
  match b, later with
  | some b, some (bytes, rest) => some (b :: bytes, rest)
  | _, _ => none

/-- A string literal after its opening quote: ASCII characters and the three escapes (R90). The fuel is the text's
length. -/
def parseString : (fuel : Nat) → List Char → Option (List Byte × List Char)
  | 0, _ => none
  | _ + 1, [] => none
  | fuel + 1, c :: cs =>
    if c = asmQuote then some ([], cs)
    else if c = '\\' then
      match cs with
      | 'x' :: hi :: lo :: rest => consByte (hexPair hi lo) (parseString fuel rest)
      | e :: rest =>
        if e = asmQuote ∨ e = '\\' then consByte (some (BitVec.ofNat 8 e.toNat)) (parseString fuel rest) else none
      | [] => none
    else if c.toNat < 128 then consByte (some (BitVec.ofNat 8 c.toNat)) (parseString fuel cs)
    else none

/-- A hex literal after its opening quote: byte pairs with white space between them (R90). DESIGN CHOICE (log entry 8): white
space may also stand just inside the quotes, and a literal with no byte pair is no bytes. -/
def parseHex : (fuel : Nat) → List Char → Option (List Byte × List Char)
  | 0, _ => none
  | _ + 1, [] => none
  | fuel + 1, c :: cs =>
    if c = asmQuote then some ([], cs)
    else if asmBlank c then parseHex fuel cs
    else
      match cs with
      | lo :: next :: rest =>
        if next = asmQuote ∨ asmBlank next then consByte (hexPair c lo) (parseHex fuel (next :: rest)) else none
      | _ => none

/-- One given character, after white space. -/
def parseChar (c : Char) (cs : List Char) : Option (List Char) :=
  match skipBlanks cs with
  | d :: rest => if d = c then some rest else none
  | [] => none

/-- A data operand (R90). The fuel bounds the nesting of `rep`. -/
def parseData : (fuel : Nat) → List Char → Option (AsmData × List Char)
  | 0, _ => none
  | fuel + 1, cs =>
    match skipBlanks cs with
    | 'x' :: rest =>
      match parseChar asmQuote rest with
      | some body => (parseHex (body.length + 1) body).map fun p => (.literal p.1, p.2)
      | none => none
    | 'r' :: 'e' :: 'p' :: rest => do
      let rest ← parseChar '(' rest
      let (n, rest) ← parseNumber 64 (skipBlanks rest)
      let rest ← parseChar ',' rest
      let (data, rest) ← parseData fuel rest
      let rest ← parseChar ')' rest
      some (.rep n.toNat data, rest)
    | c :: rest =>
      if c = asmQuote then (parseString (rest.length + 1) rest).map fun p => (.literal p.1, p.2) else none
    | [] => none

/-! ## Text: statements -/

/-- A data operand's bytes, and the text after it. -/
def parseBytes (cs : List Char) : Option (List Byte × List Char) :=
  (parseData (cs.length + 1) cs).map fun p => (asmBytes p.1, p.2)

/-- A seed operand. -/
def parseSeed (w : Nat) (cs : List Char) : Option (BitVec w × List Char) := parseNumber w (skipBlanks cs)

/-- A seed, a comma and a data operand. -/
def parseSeedData (w : Nat) (cs : List Char) : Option ((BitVec w × List Byte) × List Char) := do
  let (seed, rest) ← parseSeed w cs
  let rest ← parseChar ',' rest
  let (data, rest) ← parseBytes rest
  some ((seed, data), rest)

/-- The operands of `.byte`: one or more bytes with commas between them. The fuel is the text's length. -/
def parseByteList : (fuel : Nat) → List Char → Option (List Byte × List Char)
  | 0, _ => none
  | fuel + 1, cs =>
    match parseNumber 8 (skipBlanks cs) with
    | none => none
    | some (b, rest) =>
      match parseChar ',' rest with
      | some later => consByte (some b) (parseByteList fuel later)
      | none => some ([b], rest)

/-- The `CKSUM` statements: with a seed, or without one (R89, R91). -/
def parseCksum {w : Nat} (seeded : BitVec w → List Byte → AsmStmt) (unseeded : List Byte → AsmStmt) (cs : List Char) :
    Option (AsmStmt × List Char) :=
  match parseSeedData w cs with
  | some ((seed, data), rest) => some (seeded seed data, rest)
  | none => (parseBytes cs).map fun p => (unseeded p.1, p.2)

/-- A statement's operands, by its mnemonic, which is upper case (R89, R91). -/
def parseOperands (name : List Char) (cs : List Char) : Option (AsmStmt × List Char) :=
  if name = "INIT32".toList then (parseSeed 32 cs).map fun p => (.command (.init32 p.1), p.2)
  else if name = "INIT64".toList then (parseSeed 64 cs).map fun p => (.command (.init64 p.1), p.2)
  else if name = "RESET32".toList then some (.command .reset32, cs)
  else if name = "RESET64".toList then some (.command .reset64, cs)
  else if name = "WRITE32".toList then (parseBytes cs).map fun p => (.command (.write32 p.1), p.2)
  else if name = "WRITE64".toList then (parseBytes cs).map fun p => (.command (.write64 p.1), p.2)
  else if name = "SUM32".toList then some (.command .sum32, cs)
  else if name = "SUM64".toList then some (.command .sum64, cs)
  else if name = "CKSUM32".toList then parseCksum (fun s d => .command (.cksum32 s d)) .cksum32Unseeded cs
  else if name = "CKSUM64".toList then parseCksum (fun s d => .command (.cksum64 s d)) .cksum64Unseeded cs
  else if name = "BSIZE32".toList then some (.command .bsize32, cs)
  else if name = "BSIZE64".toList then some (.command .bsize64, cs)
  else if name = "DSIZE32".toList then some (.command .dsize32, cs)
  else if name = "DSIZE64".toList then some (.command .dsize64, cs)
  else if name = "NEW32".toList then (parseSeed 32 cs).map fun p => (.new32 p.1, p.2)
  else if name = "NEW64".toList then (parseSeed 64 cs).map fun p => (.new64 p.1, p.2)
  else if name = "HASH32".toList then (parseSeedData 32 cs).map fun p => (.hash32 p.1.1 p.1.2, p.2)
  else if name = "HASH64".toList then (parseSeedData 64 cs).map fun p => (.hash64 p.1.1 p.1.2, p.2)
  else if name = ".byte".toList then (parseByteList (cs.length + 1) cs).map fun p => (.byte p.1, p.2)
  else none

/-- Nothing but white space and a comment, which `;` begins (R89). -/
def lineEnds (cs : List Char) : Bool :=
  match skipBlanks cs with
  | [] => true
  | c :: _ => c == ';'

/-- One line: no statement, or one (R89). The outer answer is none where the line is no text of the assembler's. -/
def parseLine (line : List Char) : Option (Option AsmStmt) :=
  let cs := skipBlanks line
  if lineEnds cs then some none
  else
    match parseOperands (cs.takeWhile fun c => !asmBlank c && c != ';') (cs.dropWhile fun c => !asmBlank c && c != ';') with
    | some (stmt, rest) => if lineEnds rest then some (some stmt) else none
    | none => none

/-- The lines of a text. -/
def splitLines : List Char → List (List Char)
  | [] => [[]]
  | c :: cs =>
    match splitLines cs with
    | [] => [[c]]
    | line :: later => if c = '\n' then [] :: line :: later else (c :: line) :: later

/-- The bytes of lines of text, in order. -/
def assembleLines : List (List Char) → Option (List Byte)
  | [] => some []
  | line :: later =>
    match parseLine line, assembleLines later with
    | some none, some bytes => some bytes
    | some (some stmt), some bytes => some (assemble stmt ++ bytes)
    | _, _ => none

/-- The command stream a text assembles to, or none where a line is not in the syntax of R89 to R91. -/
def assembleText (text : String) : Option (List Byte) := assembleLines (splitLines text.toList)

end Sys2Proof.Machine
end

