-- ==== Sys2Proof/Machine/HostPort.lean ====
section
/-!
DEFINITION. The second agent: what the host can do to the core (spec/00_scope.md R7, spec/70_reset_and_hazards.md R240,
R247). The host reaches the core through its two ports and the power-on reset only.
-/

namespace Sys2Proof.Machine

/-- The host's three interactions (R247). -/
inductive HostAction where
  /-- Sends bytes on the command port: any bytes, split at any byte. -/
  | send (bytes : List Byte)
  /-- Removes the oldest response packet. -/
  | take
  /-- Asserts the power-on reset. -/
  | powerOnReset
  deriving DecidableEq, Repr

/-- Bytes arrive on the command port, in order; the port never refuses a byte (R246, R247). -/
def hostSend (s : State) (bytes : List Byte) : State := { s with cmdIn := s.cmdIn ++ bytes }

/-- The host removes the oldest response packet, where there is one (R247). -/
def hostTake (s : State) : Option (List Byte × State) :=
  match s.rspOut with
  | [] => none
  | packet :: later => some (packet, { s with rspOut := later })

/-- Power-on reset: every piece of state as R36 has it, the partial packet and the untaken responses discarded (R240).
DESIGN CHOICE (log entry 12): whole packets that have arrived and wait unexecuted are discarded with them; the spec names a
partial packet only. The model's own fault record stays, because no later step clears it (spec/60_exceptions.md R214; log entry 6). -/
def powerOnReset (s : State) : State := { State.reset with fault := s.fault }

/-- What a host action makes of the core's state. A `take` from an empty queue removes nothing. -/
def hostAct (s : State) : HostAction → State
  | .send bytes => hostSend s bytes
  | .take =>
    match hostTake s with
    | some (_, t) => t
    | none => s
  | .powerOnReset => powerOnReset s

end Sys2Proof.Machine
end

