-- ==== Sys2Proof/Machine/System.lean ====
section
/-!
DEFINITION. The core and its host together: the two agents of spec/00_scope.md R7 in any interleaving, with what a run has
consumed and what the host has taken; and a sequence of commands executed one after the other (spec/20_memory.md R63).
-/

namespace Sys2Proof.Machine

/-- One turn of one agent. -/
inductive Event where
  /-- The engine's turn. -/
  | engine
  /-- The host's turn. -/
  | host (a : HostAction)
  deriving DecidableEq, Repr

/-- The core, with a record of the run since power-on. A power-on reset begins a new run: it empties the record. -/
structure System where
  core : State
  /-- The response packets the host has removed, oldest first. -/
  taken : List (List Byte)
  /-- The command bytes the engine has consumed, oldest first: the bytes that spec/10_state.md R21's position counter
  counts. Ghost state: no step reads it. -/
  consumed : List Byte
  deriving DecidableEq, Repr

/-- The system at power-on: nothing taken, nothing consumed. -/
def System.start : System := { core := State.reset, taken := [], consumed := [] }

/-- Every response the core has emitted since power-on, in order, whether or not the host has removed it
(spec/70_reset_and_hazards.md R249). -/
def System.responses (y : System) : List (List Byte) := y.taken ++ y.core.rspOut

/-- The system after a step of the engine to `s`, which has consumed the bytes that `s` no longer has in front. -/
def engineStepped (y : System) (s : State) : System :=
  { y with core := s, consumed := y.consumed ++ y.core.cmdIn.take (y.core.cmdIn.length - s.cmdIn.length) }

/-- One event. An engine that has no step leaves the system as it is: it is held, with no timeout
(spec/60_exceptions.md R215). -/
def systemStep (y : System) : Event → System
  | .engine =>
    match step y.core with
    | .next s => engineStepped y s
    | .fault _ => y
    | .refused _ => y
  | .host .take =>
    match hostTake y.core with
    | some (packet, s) => { y with core := s, taken := y.taken ++ [packet] }
    | none => y
  | .host (.send bytes) => { y with core := hostSend y.core bytes }
  | .host .powerOnReset => { core := powerOnReset y.core, taken := [], consumed := [] }

/-- A run: the events in order. -/
def systemRun (y : System) (events : List Event) : System := events.foldl systemStep y

/-- Commands executed one after the other, each seeing every effect of the earlier ones (R63). -/
def execAll : List Instr → State → Host.Outcome State Fault Refusal
  | [], s => .next s
  | i :: later, s =>
    match exec i s with
    | .next t => execAll later t
    | .fault r => .fault r
    | .refused r => .refused r

end Sys2Proof.Machine
end

