-- ==== Sys2Proof/Machine/Run.lean ====
section
/-!
DEFINITION. A run of the core on a finite command stream `P`, and how it stands (spec/70_reset_and_hazards.md R249): the
packets of a stream, the responses that answer them (spec/30_encoding.md R84 to R87), a run's status and its final state.
-/

namespace Sys2Proof

/-! ## A command's header and response -/

/-- The width of a command: its header's `W` (spec/30_encoding.md R73). -/
def Instr.width : Instr → Width
  | .init32 _ => .w32
  | .reset32 => .w32
  | .write32 _ => .w32
  | .sum32 => .w32
  | .cksum32 _ _ => .w32
  | .bsize32 => .w32
  | .dsize32 => .w32
  | .init64 _ => .w64
  | .reset64 => .w64
  | .write64 _ => .w64
  | .sum64 => .w64
  | .cksum64 _ _ => .w64
  | .bsize64 => .w64
  | .dsize64 => .w64

/-- The operation of a command: its header's `OP` (spec/30_encoding.md R72). -/
def Instr.operation : Instr → Operation
  | .init32 _ => .init
  | .reset32 => .reset
  | .write32 _ => .write
  | .sum32 => .sum
  | .cksum32 _ _ => .cksum
  | .bsize32 => .bsize
  | .dsize32 => .dsize
  | .init64 _ => .init
  | .reset64 => .reset
  | .write64 _ => .write
  | .sum64 => .sum
  | .cksum64 _ _ => .cksum
  | .bsize64 => .bsize
  | .dsize64 => .dsize

/-- How many value bytes a command's OK response has (spec/30_encoding.md R86). -/
def Instr.valueLength (i : Instr) : Nat :=
  match i.operation with
  | .init => 0
  | .reset => 0
  | .write => 8
  | .sum => Machine.digestSize i.width
  | .cksum => Machine.digestSize i.width
  | .bsize => 1
  | .dsize => 1

end Sys2Proof

namespace Sys2Proof.Machine

/-! ## The packets of a stream and their responses -/

/-- The packets a byte stream begins with, in order: commands, and malformed header bytes by their error (R70, R80). Each
takes at least one byte, so as much fuel as there are bytes is enough; bytes of an unfinished packet are none. -/
def packetsWithin : (fuel : Nat) → List Byte → List (Except CmdError Instr)
  | 0, _ => []
  | fuel + 1, bytes =>
    match decode bytes with
    | .incomplete => []
    | .malformed e rest => .error e :: packetsWithin fuel rest
    | .command i rest => .ok i :: packetsWithin fuel rest

/-- The packets of a command stream (R70). -/
def packetsOf (stream : List Byte) : List (Except CmdError Instr) := packetsWithin stream.length stream

/-- The response has the form the packet calls for: the error's one status byte, or OK and as many value bytes as the
command has (R85, R86, R87). -/
def answers (packet : Except CmdError Instr) (response : List Byte) : Bool :=
  match packet, response with
  | .error e, response => response == [statusByte (.error e)]
  | .ok _, [] => false
  | .ok i, status :: value => status == statusByte .ok && value.length == i.valueLength

/-- One response for each packet, in the packets' order, and no other (R84, R87). -/
def answersAll : List (Except CmdError Instr) → List (List Byte) → Bool
  | [], [] => true
  | [], _ :: _ => false
  | _ :: _, [] => false
  | packet :: packets, response :: responses => answers packet response && answersAll packets responses

/-! ## The end of a run -/

/-- How a run of the core on a finite command stream stands (R249). -/
inductive RunStatus where
  /-- Every byte of the stream is consumed, the parser is at a packet boundary, the responses for every packet of the
  stream are there, and no fault is recorded. -/
  | finished
  /-- The engine has no step and the run is not finished: a partial packet, no byte at all, or a full response queue. Never
  final. -/
  | held (why : Fault)
  /-- An invariant fault is recorded, or the state breaks R27 (a). Never final. -/
  | faulted (what : InvariantFault)
  /-- The engine has a step. -/
  | running
  deriving DecidableEq, Repr

/-- The first three conditions of R249 for the end of a run on the stream: every byte of it consumed, the parser at a packet
boundary with nothing pending, and the response for every packet of it given. Whether the host has removed a response does
not matter, but one that a power-on reset discarded is not there. -/
def streamDone (stream : List Byte) (y : System) : Bool :=
  y.consumed == stream && y.core.cmdIn == [] && answersAll (packetsOf stream) y.responses

/-- The status of a run on the stream, as the system stands (R249). -/
def runStatus (stream : List Byte) (y : System) : RunStatus :=
  match y.core.fault, brokenContext y.core with
  | some what, _ => .faulted what
  | none, some what => .faulted what
  | none, none =>
    if streamDone stream y then .finished
    else
      match fetch y.core with
      | .stopped why => .held why
      | .broken what => .faulted what
      | .malformed _ => .running
      | .command _ _ => .running

/-- The final state of a run: the two contexts and the list of responses, and nothing else (R249). -/
structure RunResult where
  ctx32 : Ctx 32
  ctx64 : Ctx 64
  responses : List (List Byte)
  deriving DecidableEq, Repr

/-- The final state, where the run on the stream is finished (R249). -/
def runResult (stream : List Byte) (y : System) : Option RunResult :=
  match runStatus stream y with
  | .finished => some { ctx32 := y.core.ctx32, ctx64 := y.core.ctx64, responses := y.responses }
  | .held _ => none
  | .faulted _ => none
  | .running => none

end Sys2Proof.Machine
end

