-- ==== Sys2Proof/Safety.lean ====
section
/-!
DEFINITION. What counts as a good state, in the terms the statements use: the invariants of spec/10_state.md R27 and R28,
the commands by the state they write (R23 to R25, R29), and the histories and runs statements speak of.
-/

namespace Sys2Proof.Machine

/-! ## Invariants of the state -/

/-- R27 (a) of both contexts: `len(buf) < BS(W)`. -/
abbrev State.BuffersInRange (s : State) : Prop :=
  s.ctx32.buf.length < blockSize .w32 ∧ s.ctx64.buf.length < blockSize .w64

/-- The length law of R28 in both contexts: `len(buf) = total_length mod BS(W)`, which holds even after the counter
wraps. -/
abbrev State.LengthsAgree (s : State) : Prop :=
  s.ctx32.buf.length = s.ctx32.totalLength.toNat % blockSize .w32 ∧
    s.ctx64.buf.length = s.ctx64.totalLength.toNat % blockSize .w64

/-- CTX32 is what the concatenation `S` of the payloads written since its last `INIT`, `RESET` or power-on makes of it
(R27, R28): the lanes are the initial values for the stored seed with exactly the complete blocks of `S` applied in
order, the buffer holds the bytes of `S` after them, and `total_length` is the length of `S` modulo 2^64. -/
structure Streams32 (ctx : Ctx 32) (S : List Byte) : Prop where
  lanes : absorb32 (init32 ctx.seed) S = .ok (ctx.v, blockSize .w32 * (S.length / blockSize .w32))
  buffer : ctx.buf = S.drop (blockSize .w32 * (S.length / blockSize .w32))
  total : ctx.totalLength = lenOf S

/-- CTX64 is what the concatenation `S` of the payloads written to it makes of it (R27, R28). -/
structure Streams64 (ctx : Ctx 64) (S : List Byte) : Prop where
  lanes : absorb64 (init64 ctx.seed) S = .ok (ctx.v, blockSize .w64 * (S.length / blockSize .w64))
  buffer : ctx.buf = S.drop (blockSize .w64 * (S.length / blockSize .w64))
  total : ctx.totalLength = lenOf S

/-- Both contexts are what some history of payloads makes of them (R27, R28). -/
def State.Accounted (s : State) : Prop := (∃ S, Streams32 s.ctx32 S) ∧ (∃ S, Streams64 s.ctx64 S)

/-- The response queue holds at most `RSP_DEPTH` responses (R35). -/
abbrev State.QueueInDepth (s : State) : Prop := s.rspOut.length ≤ Config.rspDepth

/-- The engine may start a command: no fault is recorded, R27 (a) holds, and the response queue has room (R214, R246). -/
abbrev State.Ready (s : State) : Prop := s.fault = none ∧ s.BuffersInRange ∧ queueFull s = false

end Sys2Proof.Machine

namespace Sys2Proof

/-! ## Commands by what they write -/

/-- The command writes its context: `INIT`, `RESET` or `WRITE` (R24, R25). -/
def Instr.writesContext (i : Instr) : Bool :=
  match i.operation with
  | .init => true
  | .reset => true
  | .write => true
  | .sum => false
  | .cksum => false
  | .bsize => false
  | .dsize => false

end Sys2Proof

namespace Sys2Proof.Machine

/-! ## Runs -/

/-- The concatenation of the payloads written to the context of width `W` since its last `INIT` or `RESET`, after one more
command (R27, R28). -/
def historyStep (W : Width) (S : List Byte) (i : Instr) : List Byte :=
  if i.width = W then
    match i with
    | .init32 _ => []
    | .reset32 => []
    | .write32 data => S ++ data
    | .sum32 => S
    | .cksum32 _ _ => S
    | .bsize32 => S
    | .dsize32 => S
    | .init64 _ => []
    | .reset64 => []
    | .write64 data => S ++ data
    | .sum64 => S
    | .cksum64 _ _ => S
    | .bsize64 => S
    | .dsize64 => S
  else S

/-- The same after the commands, from the history `S`. -/
def historyAfter (W : Width) (S : List Byte) (commands : List Instr) : List Byte := commands.foldl (historyStep W) S

/-- The same after one more packet: a malformed header byte writes nothing (R29). -/
def historyPacket (W : Width) (S : List Byte) (packet : Except CmdError Instr) : List Byte :=
  match packet with
  | .ok i => historyStep W S i
  | .error _ => S

/-- The history of the context of width `W` after the packets of a command stream from power-on (R27, R28). -/
def historyOf (W : Width) (stream : List Byte) : List Byte := (packetsOf stream).foldl (historyPacket W) []

/-- The command writes the context of width `W`. -/
def Writes (W : Width) (i : Instr) : Prop := i.width = W ∧ i.writesContext = true

/-- From `s` the core comes to `u` with no `INIT`, `RESET` or `WRITE` of width `W` on the way: other commands run, and
error responses and host traffic on the two ports come between (spec/42_stream_commands.md R165). -/
inductive Quiet (W : Width) : State → State → Prop where
  | refl (s : State) : Quiet W s s
  | command {s t u : State} (i : Instr) (hi : ¬ Writes W i) (hx : exec i s = .next t) (h : Quiet W t u) : Quiet W s u
  | error {s u : State} (e : CmdError) (h : Quiet W (raiseCmdError s e) u) : Quiet W s u
  | ports {s u : State} (cmdIn : List Byte) (rspOut : List (List Byte))
      (h : Quiet W { s with cmdIn := cmdIn, rspOut := rspOut } u) : Quiet W s u

/-- The bytes a run's host sends, in order. -/
def sentBytes : List Event → List Byte
  | [] => []
  | .host (.send bytes) :: later => bytes ++ sentBytes later
  | .host .take :: later => sentBytes later
  | .host .powerOnReset :: later => sentBytes later
  | .engine :: later => sentBytes later

/-- A run without a power-on reset. -/
def ResetFree (events : List Event) : Prop := Event.host .powerOnReset ∉ events

/-! ## Outcomes -/

/-- An outcome with its next state changed, where it has one. -/
def mapNext (f : State → State) : Host.Outcome State Fault Refusal → Host.Outcome State Fault Refusal
  | .next s => .next (f s)
  | .fault r => .fault r
  | .refused r => .refused r

end Sys2Proof.Machine
end

