-- ==== Sys2Proof/Certificates/Slice0/Obligations.lean ====
section
/-!
DEFINITION. The statements for the provers. Each says which rule of spec/ it formalises, or which sections it is derived
from. Every equation with a next state is the command's whole effect: what it does not name is unchanged.
-/

open Sys2Proof Sys2Proof.Machine

/-! ## Encoding and decoding -/

/-- R72, R81: the one outcome of each of the 256 header bytes. -/
def Obligations.EveryHeaderByteHasItsOutcome : Prop :=
  (∀ h : Byte, 0x10 ≤ h.toNat → decodeHeader h = .error .errReserved) ∧
  decodeHeader 0x00 = .error .errOpcode ∧ decodeHeader 0x08 = .error .errOpcode ∧
  decodeHeader 0x01 = .ok (.init, .w32) ∧ decodeHeader 0x09 = .ok (.init, .w64) ∧
  decodeHeader 0x02 = .ok (.reset, .w32) ∧ decodeHeader 0x0A = .ok (.reset, .w64) ∧
  decodeHeader 0x03 = .ok (.write, .w32) ∧ decodeHeader 0x0B = .ok (.write, .w64) ∧
  decodeHeader 0x04 = .ok (.sum, .w32) ∧ decodeHeader 0x0C = .ok (.sum, .w64) ∧
  decodeHeader 0x05 = .ok (.cksum, .w32) ∧ decodeHeader 0x0D = .ok (.cksum, .w64) ∧
  decodeHeader 0x06 = .ok (.bsize, .w32) ∧ decodeHeader 0x0E = .ok (.bsize, .w64) ∧
  decodeHeader 0x07 = .ok (.dsize, .w32) ∧ decodeHeader 0x0F = .ok (.dsize, .w64)

/-- R92: the spec's four written-out packets, one for each format, encode and decode as it says. -/
def Obligations.WrittenOutPacketsEncodeAndDecode : Prop :=
  (encode (.init32 0x12345678) = [0x01, 0x78, 0x56, 0x34, 0x12] ∧
    decode [0x01, 0x78, 0x56, 0x34, 0x12] = .command (.init32 0x12345678) []) ∧
  (encode (.write64 [0x61, 0x62, 0x63]) = [0x0B, 0x03, 0, 0, 0, 0, 0, 0, 0, 0x61, 0x62, 0x63] ∧
    decode [0x0B, 0x03, 0, 0, 0, 0, 0, 0, 0, 0x61, 0x62, 0x63] = .command (.write64 [0x61, 0x62, 0x63]) []) ∧
  (encode .sum32 = [0x04] ∧ decode [0x04] = .command .sum32 []) ∧
  (encode (.cksum64 0 []) = [0x0D, 0, 0, 0, 0, 0, 0, 0, 0, 0, 0, 0, 0, 0, 0, 0, 0] ∧
    decode [0x0D, 0, 0, 0, 0, 0, 0, 0, 0, 0, 0, 0, 0, 0, 0, 0, 0] = .command (.cksum64 0 []) [])

/-- R70, R75 to R78: every well-formed command's packet decodes to that command, whatever bytes follow it. -/
def Obligations.DecodeUndoesEncode : Prop :=
  ∀ (i : Instr) (rest : List Byte), i.wellFormed = true → decode (encode i ++ rest) = .command i rest

/-- R70, R75 to R78, R81: bytes that decode to a command are that command's packet and what follows it, so each packet
has one meaning and each command one packet. -/
def Obligations.EncodeUndoesDecode : Prop :=
  ∀ (i : Instr) (bytes rest : List Byte),
    decode bytes = .command i rest → i.wellFormed = true ∧ bytes = encode i ++ rest

/-- R75, R79: the length of each format's packet, which is what the parser determines from the bytes. -/
def Obligations.PacketLengthsByFormat : Prop :=
  ∀ (rest : List Byte) (i : Instr), i.wellFormed = true →
    packetLength (encode i ++ rest) = some (encode i).length ∧
    (encode i).length =
      match i with
      | .init32 _ => 5
      | .init64 _ => 9
      | .write32 data => 9 + data.length
      | .write64 data => 9 + data.length
      | .cksum32 _ data => 13 + data.length
      | .cksum64 _ data => 17 + data.length
      | .reset32 => 1
      | .reset64 => 1
      | .sum32 => 1
      | .sum64 => 1
      | .bsize32 => 1
      | .bsize64 => 1
      | .dsize32 => 1
      | .dsize64 => 1

/-- R79, R80: the parser finds no packet exactly while the bytes do not determine a length or fall short of it; where it
finds one, it consumes exactly that length, which is 1 for a malformed header. -/
def Obligations.ParserConsumesThePacketLength : Prop :=
  ∀ bytes : List Byte,
    (decode bytes = .incomplete ↔ ∀ n, packetLength bytes = some n → bytes.length < n) ∧
    (∀ i rest, decode bytes = .command i rest →
      ∃ n, packetLength bytes = some n ∧ n ≤ bytes.length ∧ rest = bytes.drop n) ∧
    (∀ e rest, decode bytes = .malformed e rest →
      packetLength bytes = some 1 ∧ bytes.length = rest.length + 1 ∧ rest = bytes.drop 1)

/-- R78, R80, R245: bytes that arrive later change nothing about a packet that is already whole. -/
def Obligations.LaterBytesDoNotChangeAPacket : Prop :=
  ∀ bytes more : List Byte,
    (∀ i rest, decode bytes = .command i rest → decode (bytes ++ more) = .command i (rest ++ more)) ∧
    (∀ e rest, decode bytes = .malformed e rest → decode (bytes ++ more) = .malformed e (rest ++ more))

/-- The opcode table's rows: the header byte alone, with operand bytes of zeros, decodes to the row's command, and placed
next on the command port after reset it is what the next step runs (R72, R75; log entry 4 for the placing). -/
def Obligations.TableRowsDecodeAndRun : Prop :=
  ∀ row ∈ [((0x01 : Nat), Instr.init32 0), (0x02, .reset32), (0x03, .write32 []), (0x04, .sum32), (0x05, .cksum32 0 []),
      (0x06, .bsize32), (0x07, .dsize32), (0x09, .init64 0), (0x0A, .reset64), (0x0B, .write64 []), (0x0C, .sum64),
      (0x0D, .cksum64 0 []), (0x0E, .bsize64), (0x0F, .dsize64)],
    decodeTableWord 8 row.1 = some row.2 ∧ step (State.reset.withFetchWord 8 row.1) = exec row.2 State.reset

/-! ## The step of the engine -/

/-- R63, R70, R80: when the bytes at the front of the command port are a command's packet, one step is that command on
the state with the packet consumed. -/
def Obligations.StepRunsTheDecodedCommand : Prop :=
  ∀ (s : State) (i : Instr) (rest : List Byte), s.Ready → decode s.cmdIn = .command i rest →
    step s = exec i { s with cmdIn := rest }

/-- R74, R210 to R213: a malformed header byte alone is consumed and answered by its one-byte error response, ERR_RESERVED
before ERR_OPCODE, and nothing else changes; and only a malformed header byte is answered so. -/
def Obligations.StepAnswersAMalformedHeader : Prop :=
  (∀ (s : State) (h : Byte) (rest : List Byte), s.Ready → s.cmdIn = h :: rest →
    (h.extractLsb' 4 4 ≠ 0 → step s = .next { s with cmdIn := rest, rspOut := s.rspOut ++ [[0x02]] }) ∧
    (h.extractLsb' 4 4 = 0 → h.extractLsb' 0 3 = 0 →
      step s = .next { s with cmdIn := rest, rspOut := s.rspOut ++ [[0x01]] })) ∧
  (∀ (s t : State) (code : Byte) (value : List Byte), step s = .next t → t.rspOut = s.rspOut ++ [code :: value] →
    code ≠ 0x00 → ∃ h rest, s.cmdIn = h :: rest ∧ value = [] ∧
      ((code = 0x02 ∧ h.extractLsb' 4 4 ≠ 0) ∨ (code = 0x01 ∧ h.extractLsb' 4 4 = 0 ∧ h.extractLsb' 0 3 = 0)))

/-- R80, R215: with only part of a command's packet there the engine has no step, and when the missing bytes arrive it
runs the command. The hold's form, an outcome `fault`, is the model's (log entry 1). -/
def Obligations.PartialPacketHoldsTheEngine : Prop :=
  ∀ (s : State) (i : Instr) (missing : List Byte), s.Ready → i.wellFormed = true → missing ≠ [] →
    s.cmdIn ++ missing = encode i →
    step s = .fault .heldIncompletePacket ∧ step (hostSend s missing) = exec i { s with cmdIn := [] }

/-- R35, R215, R246: a full response queue holds the engine whatever is on the command port, and once the host has
removed the oldest response of a queue at its depth the engine may start a command again. That a malformed header is held
too is the model's reading (log entry 7), the hold's form its choice (log entry 1). -/
def Obligations.FullResponseQueueHoldsTheEngine : Prop :=
  ∀ s : State, s.fault = none → s.BuffersInRange → s.rspOut.length = Config.rspDepth →
    step s = .fault .heldResponseQueueFull ∧
    ∃ packet t, hostTake s = some (packet, t) ∧ s.rspOut = packet :: t.rspOut ∧ t.Ready

/-- R214, R249: a context with a full buffer is recorded as an invariant fault; a state with one recorded has no step; and
no later event clears it. The step at which it is recorded, and that power-on reset keeps it, are the model's choices (log
entries 5 and 6). -/
def Obligations.InvariantFaultIsRecordedForGood : Prop :=
  (∀ s what, s.fault = none → brokenContext s = some what → step s = .next { s with fault := some what }) ∧
  (∀ s what, s.fault = some what → step s = .fault (.invariantFault what)) ∧
  (∀ y what events, y.core.fault = some what → (systemRun y events).core.fault = some what)

/-- R84 to R86: a step that records no fault emits exactly one response, after those already in the queue: 0x00 and the
value bytes of its command's length, or one error byte for a malformed header. -/
def Obligations.StepEmitsExactlyOneResponse : Prop :=
  ∀ s t : State, step s = .next t → t.fault = none →
    (∃ i rest value, decode s.cmdIn = .command i rest ∧ value.length = i.valueLength ∧
      t.rspOut = s.rspOut ++ [0x00 :: value]) ∨
    (∃ rest, decode s.cmdIn = .malformed .errOpcode rest ∧ t.rspOut = s.rspOut ++ [[0x01]]) ∨
    (∃ rest, decode s.cmdIn = .malformed .errReserved rest ∧ t.rspOut = s.rspOut ++ [[0x02]])

/-- R21, R60, R79: a step that records no fault consumes exactly its packet's bytes from the front of the command port. -/
def Obligations.StepConsumesExactlyItsPacket : Prop :=
  ∀ s t : State, step s = .next t → t.fault = none →
    ∃ n, packetLength s.cmdIn = some n ∧ 0 < n ∧ n ≤ s.cmdIn.length ∧ t.cmdIn = s.cmdIn.drop n

/-- R27, R214, R216: nothing but a hold keeps the engine from a step, no packet raises an invariant fault, and every
command is answered OK: every seed, every length and every payload byte is accepted, whatever came before. -/
def Obligations.EveryWholePacketIsAccepted : Prop :=
  ∀ s : State, s.Ready → decode s.cmdIn ≠ .incomplete →
    ∃ t response, step s = .next t ∧ t.fault = none ∧ t.BuffersInRange ∧ t.rspOut = s.rspOut ++ [response] ∧
      ∀ i rest, decode s.cmdIn = .command i rest → ∃ value, response = 0x00 :: value

/-! ## The commands -/

/-- R140, R141: `INIT` stores the seed, sets the lanes to their initial values for it, clears the counter and the buffer,
and responds 0x00; nothing else changes. -/
def Obligations.InitConstructsTheContext : Prop :=
  (∀ (seed : U32) (s : State), exec (.init32 seed) s = .next
    { s with
      ctx32 :=
        { seed := seed
          v := { v1 := seed + 0x9E3779B1 + 0x85EBCA77, v2 := seed + 0x85EBCA77, v3 := seed, v4 := seed - 0x9E3779B1 }
          totalLength := 0
          buf := []
          phase := .initialized }
      rspOut := s.rspOut ++ [[0x00]] }) ∧
  (∀ seed : U32, (encode (.init32 seed)).head? = some 0x01 ∧ (encode (.init32 seed)).length = 5) ∧
  (∀ seed : U64, (encode (.init64 seed)).head? = some 0x09 ∧ (encode (.init64 seed)).length = 9) ∧
  (∀ (seed : U64) (s : State), exec (.init64 seed) s = .next
    { s with
      ctx64 :=
        { seed := seed
          v :=
            { v1 := seed + 0x9E3779B185EBCA87 + 0xC2B2AE3D27D4EB4F
              v2 := seed + 0xC2B2AE3D27D4EB4F
              v3 := seed
              v4 := seed - 0x9E3779B185EBCA87 }
          totalLength := 0
          buf := []
          phase := .initialized }
      rspOut := s.rspOut ++ [[0x00]] })

/-- R142, R143: `RESET` returns its context to what `INIT` with the stored seed makes of it and responds 0x00; nothing
else changes. R148: commands after a `RESET` do and answer what they do and answer after that `INIT`. -/
def Obligations.ResetRestoresTheStoredSeed : Prop :=
  (∀ s : State, exec .reset32 s = .next
    { s with
      ctx32 := { seed := s.ctx32.seed, v := init32 s.ctx32.seed, totalLength := 0, buf := [], phase := .initialized }
      rspOut := s.rspOut ++ [[0x00]] }) ∧
  (∀ s : State, exec .reset64 s = .next
    { s with
      ctx64 := { seed := s.ctx64.seed, v := init64 s.ctx64.seed, totalLength := 0, buf := [], phase := .initialized }
      rspOut := s.rspOut ++ [[0x00]] }) ∧
  encode .reset32 = [0x02] ∧ encode .reset64 = [0x0A] ∧
  (∀ (s : State) (later : List Instr),
    execAll (.reset32 :: later) s = execAll (.init32 s.ctx32.seed :: later) s ∧
    execAll (.reset64 :: later) s = execAll (.init64 s.ctx64.seed :: later) s)

/-- R144 to R147: the size queries answer their constants in every state and change nothing else. -/
def Obligations.SizeQueriesAnswerTheirConstants : Prop :=
  ∀ s : State,
    exec .bsize32 s = .next { s with rspOut := s.rspOut ++ [[0x00, 0x10]] } ∧
    exec .bsize64 s = .next { s with rspOut := s.rspOut ++ [[0x00, 0x20]] } ∧
    exec .dsize32 s = .next { s with rspOut := s.rspOut ++ [[0x00, 0x04]] } ∧
    exec .dsize64 s = .next { s with rspOut := s.rspOut ++ [[0x00, 0x08]] } ∧
    encode .bsize32 = [0x06] ∧ encode .bsize64 = [0x0E] ∧ encode .dsize32 = [0x07] ∧ encode .dsize64 = [0x0F]

/-- R160, R28: `WRITE32` mixes exactly the complete blocks of the buffered bytes followed by the payload, in order, keeps
the bytes after them, adds the payload's length to the counter and answers it; nothing else changes. Of a payload of 2^64
bytes or more, which no packet spells, what is encoded and counted is the model's choice (log entries 11 and 9). -/
def Obligations.WriteAbsorbsTheCompleteBlocks32 : Prop :=
  (∀ d : List Byte, (encode (.write32 d)).head? = some 0x03 ∧ (encode (.write32 d)).length = 9 + d.length) ∧
  ∀ (s : State) (d : List Byte), s.ctx32.buf.length < 16 →
    ∃ v, absorb32 s.ctx32.v (s.ctx32.buf ++ d) = .ok (v, 16 * ((s.ctx32.buf.length + d.length) / 16)) ∧
      exec (.write32 d) s = .next
        { s with
          ctx32 :=
            { seed := s.ctx32.seed
              v := v
              totalLength := s.ctx32.totalLength + BitVec.ofNat 64 d.length
              buf := (s.ctx32.buf ++ d).drop (16 * ((s.ctx32.buf.length + d.length) / 16))
              phase := .accumulating }
          rspOut := s.rspOut ++ [0x00 :: beBytes 8 (BitVec.ofNat 64 d.length)] }

/-- R161, R28: `WRITE64`, as `WRITE32` with blocks of 32 bytes and the 64-bit lanes, and with the model's same choice for a
payload of 2^64 bytes or more (log entries 11 and 9). -/
def Obligations.WriteAbsorbsTheCompleteBlocks64 : Prop :=
  (∀ d : List Byte, (encode (.write64 d)).head? = some 0x0B ∧ (encode (.write64 d)).length = 9 + d.length) ∧
  ∀ (s : State) (d : List Byte), s.ctx64.buf.length < 32 →
    ∃ v, absorb64 s.ctx64.v (s.ctx64.buf ++ d) = .ok (v, 32 * ((s.ctx64.buf.length + d.length) / 32)) ∧
      exec (.write64 d) s = .next
        { s with
          ctx64 :=
            { seed := s.ctx64.seed
              v := v
              totalLength := s.ctx64.totalLength + BitVec.ofNat 64 d.length
              buf := (s.ctx64.buf ++ d).drop (32 * ((s.ctx64.buf.length + d.length) / 32))
              phase := .accumulating }
          rspOut := s.rspOut ++ [0x00 :: beBytes 8 (BitVec.ofNat 64 d.length)] }

/-- R160, R161, R162, R31: a `WRITE` whose bytes do not complete a block only appends them: no lane is mixed. With no
bytes at all it changes no field of R22, only the ghost phase. -/
def Obligations.ShortWriteOnlyAppends : Prop :=
  (∀ (s : State) (d : List Byte), s.ctx32.buf.length + d.length < 16 → exec (.write32 d) s = .next
    { s with
      ctx32 :=
        { s.ctx32 with
          totalLength := s.ctx32.totalLength + BitVec.ofNat 64 d.length
          buf := s.ctx32.buf ++ d
          phase := .accumulating }
      rspOut := s.rspOut ++ [0x00 :: beBytes 8 (BitVec.ofNat 64 d.length)] }) ∧
  (∀ (s : State) (d : List Byte), s.ctx64.buf.length + d.length < 32 → exec (.write64 d) s = .next
    { s with
      ctx64 :=
        { s.ctx64 with
          totalLength := s.ctx64.totalLength + BitVec.ofNat 64 d.length
          buf := s.ctx64.buf ++ d
          phase := .accumulating }
      rspOut := s.rspOut ++ [0x00 :: beBytes 8 (BitVec.ofNat 64 d.length)] }) ∧
  (∀ s : State, s.ctx32.buf.length < 16 → exec (.write32 []) s = .next
    { s with
      ctx32 := { s.ctx32 with phase := .accumulating }
      rspOut := s.rspOut ++ [[0x00, 0, 0, 0, 0, 0, 0, 0, 0]] }) ∧
  (∀ s : State, s.ctx64.buf.length < 32 → exec (.write64 []) s = .next
    { s with
      ctx64 := { s.ctx64 with phase := .accumulating }
      rspOut := s.rspOut ++ [[0x00, 0, 0, 0, 0, 0, 0, 0, 0]] })

/-- R163, R164: `SUM` answers, most significant byte first, the mixer's digest of the context's own lanes, seed, counter
and buffered bytes, and changes nothing else. -/
def Obligations.SumAnswersTheContextsDigest : Prop :=
  (∀ s : State, s.ctx32.buf.length < 16 →
    ∃ h, mix32 s.ctx32.v s.ctx32.seed s.ctx32.totalLength s.ctx32.buf = .ok h ∧
      exec .sum32 s = .next { s with rspOut := s.rspOut ++ [0x00 :: beBytes 4 h] }) ∧
  (∀ s : State, s.ctx64.buf.length < 32 →
    ∃ h, mix64 s.ctx64.v s.ctx64.seed s.ctx64.totalLength s.ctx64.buf = .ok h ∧
      exec .sum64 s = .next { s with rspOut := s.rspOut ++ [0x00 :: beBytes 8 h] }) ∧
  encode .sum32 = [0x04] ∧ encode .sum64 = [0x0C]

/-- R190, R191: `CKSUM` answers, most significant byte first, the mixer's digest of the initial lanes with the complete
blocks of the payload absorbed, the seed, the payload's length and the payload's bytes after those blocks; it changes
nothing else. Of a payload of 2^64 bytes or more, which no packet spells, what is encoded and the length the mixer gets are
the model's choice (log entries 11 and 9). -/
def Obligations.CksumAnswersTheOneShotDigest : Prop :=
  (∀ (seed : U32) (d : List Byte) (s : State), ∃ v h,
    absorb32 (init32 seed) d = .ok (v, 16 * (d.length / 16)) ∧
    mix32 v seed (BitVec.ofNat 64 d.length) (d.drop (16 * (d.length / 16))) = .ok h ∧
    exec (.cksum32 seed d) s = .next { s with rspOut := s.rspOut ++ [0x00 :: beBytes 4 h] }) ∧
  (∀ (seed : U64) (d : List Byte) (s : State), ∃ v h,
    absorb64 (init64 seed) d = .ok (v, 32 * (d.length / 32)) ∧
    mix64 v seed (BitVec.ofNat 64 d.length) (d.drop (32 * (d.length / 32))) = .ok h ∧
    exec (.cksum64 seed d) s = .next { s with rspOut := s.rspOut ++ [0x00 :: beBytes 8 h] }) ∧
  (∀ (seed : U32) (d : List Byte),
    (encode (.cksum32 seed d)).head? = some 0x05 ∧ (encode (.cksum32 seed d)).length = 13 + d.length) ∧
  (∀ (seed : U64) (d : List Byte),
    (encode (.cksum64 seed d)).head? = some 0x0D ∧ (encode (.cksum64 seed d)).length = 17 + d.length)

/-- R57, R86: the digest and `WRITE`'s count leave most significant byte first. -/
def Obligations.ResponseValuesAreBigEndian : Prop :=
  (∀ b0 b1 b2 b3 : Byte, beBytes 4 (b0 ++ b1 ++ b2 ++ b3) = [b0, b1, b2, b3]) ∧
  (∀ b0 b1 b2 b3 b4 b5 b6 b7 : Byte,
    beBytes 8 (b0 ++ b1 ++ b2 ++ b3 ++ b4 ++ b5 ++ b6 ++ b7) = [b0, b1, b2, b3, b4, b5, b6, b7])

/-- R214 (log entry 5): `WRITE` and `SUM` on a context that breaks R27 (a) record its invariant fault, emit no response
and change nothing else. -/
def Obligations.CommandsOnAFullBufferRecordTheFault : Prop :=
  (∀ s : State, 16 ≤ s.ctx32.buf.length →
    (∀ d, exec (.write32 d) s = .next { s with fault := some (.contextBufferFull .w32) }) ∧
    exec .sum32 s = .next { s with fault := some (.contextBufferFull .w32) }) ∧
  (∀ s : State, 32 ≤ s.ctx64.buf.length →
    (∀ d, exec (.write64 d) s = .next { s with fault := some (.contextBufferFull .w64) }) ∧
    exec .sum64 s = .next { s with fault := some (.contextBufferFull .w64) })

/-! ## The datapath -/

/-- R52, R54: the byte reader, at 4 and at 8 bytes: in range it answers the sum of the bytes, each shifted by eight times
its place; out of range it raises the reader's invariant fault. A single byte is itself. -/
def Obligations.ByteReaderIsLittleEndian : Prop :=
  (∀ (pre post : List Byte) (b0 b1 b2 b3 : Byte),
    memRead 32 (pre ++ [b0, b1, b2, b3] ++ post) pre.length = .ok
      (b0.setWidth 32 + b1.setWidth 32 <<< 8 + b2.setWidth 32 <<< 16 + b3.setWidth 32 <<< 24)) ∧
  (∀ (pre post : List Byte) (b0 b1 b2 b3 b4 b5 b6 b7 : Byte),
    memRead 64 (pre ++ [b0, b1, b2, b3, b4, b5, b6, b7] ++ post) pre.length = .ok
      (b0.setWidth 64 + b1.setWidth 64 <<< 8 + b2.setWidth 64 <<< 16 + b3.setWidth 64 <<< 24 +
        b4.setWidth 64 <<< 32 + b5.setWidth 64 <<< 40 + b6.setWidth 64 <<< 48 + b7.setWidth 64 <<< 56)) ∧
  (∀ (pre post : List Byte) (b : Byte), memRead 8 (pre ++ [b] ++ post) pre.length = .ok b) ∧
  (∀ (src : List Byte) (i : Nat), src.length < i + 4 → memRead 32 src i = .error .readerOutOfRange) ∧
  (∀ (src : List Byte) (i : Nat), src.length < i + 8 → memRead 64 src i = .error .readerOutOfRange)

/-- R55: an 8-byte read is its two halves; the low byte of a 4-byte read is the byte at its offset; and a 4-byte read
inside an 8-byte window is the window shifted down by eight times its offset. -/
def Obligations.WideAndNarrowReadsAgree : Prop :=
  ∀ (src : List Byte) (i : Nat), i + 8 ≤ src.length →
    ∃ wide low high, memRead 64 src i = .ok wide ∧ memRead 32 src i = .ok low ∧ memRead 32 src (i + 4) = .ok high ∧
      wide = low.setWidth 64 + high.setWidth 64 <<< 32 ∧
      src[i]? = some (low.setWidth 8) ∧
      ∀ k ≤ 4, memRead 32 src (i + k) = .ok ((wide >>> (8 * k)).setWidth 32)

/-- R108, R109: a block mixes lane `k` with the block's `k`-th word, every lane once, and reads nothing else. That lane `k`
takes the `k`-th word is the spec's own inference: 'The spec reads "corresponding word" that way' (R108). -/
def Obligations.BlockMixesEachLaneWithItsWord : Prop :=
  (∀ (v : Lanes 32) (b : List Byte) (o : Nat), o + 16 ≤ b.length →
    ∃ x1 x2 x3 x4, memRead 32 b o = .ok x1 ∧ memRead 32 b (o + 4) = .ok x2 ∧ memRead 32 b (o + 8) = .ok x3 ∧
      memRead 32 b (o + 12) = .ok x4 ∧
      block32 v b o = .ok
        { v1 := round32 v.v1 x1, v2 := round32 v.v2 x2, v3 := round32 v.v3 x3, v4 := round32 v.v4 x4 }) ∧
  (∀ (v : Lanes 64) (b : List Byte) (o : Nat), o + 32 ≤ b.length →
    ∃ x1 x2 x3 x4, memRead 64 b o = .ok x1 ∧ memRead 64 b (o + 8) = .ok x2 ∧ memRead 64 b (o + 16) = .ok x3 ∧
      memRead 64 b (o + 24) = .ok x4 ∧
      block64 v b o = .ok
        { v1 := round64 v.v1 x1, v2 := round64 v.v2 x2, v3 := round64 v.v3 x3, v4 := round64 v.v4 x4 })

/-- R110: absorbing consumes no byte of less than a block, and a block at the front is mixed first, the rest after it. -/
def Obligations.AbsorbTakesBlocksInOrder : Prop :=
  (∀ (v : Lanes 32) (d : List Byte), d.length < 16 → absorb32 v d = .ok (v, 0)) ∧
  (∀ (v : Lanes 32) (b d : List Byte), b.length = 16 →
    ∃ v1 v2 i, block32 v b 0 = .ok v1 ∧ absorb32 v1 d = .ok (v2, i) ∧ absorb32 v (b ++ d) = .ok (v2, 16 + i)) ∧
  (∀ (v : Lanes 64) (d : List Byte), d.length < 32 → absorb64 v d = .ok (v, 0)) ∧
  (∀ (v : Lanes 64) (b d : List Byte), b.length = 32 →
    ∃ v1 v2 i, block64 v b 0 = .ok v1 ∧ absorb64 v1 d = .ok (v2, i) ∧ absorb64 v (b ++ d) = .ok (v2, 32 + i))

/-- R114, R115, R119: the XXH32 tail takes 4-byte steps while 4 bytes remain, then 1-byte steps, from the front. -/
def Obligations.TailTakesWordsThenBytes32 : Prop :=
  (∀ h, tail32 h [] = .ok h) ∧
  (∀ (h : U32) (b0 b1 b2 b3 : Byte) (t : List Byte),
    tail32 h (b0 :: b1 :: b2 :: b3 :: t) = tail32 (tailWord32 h (b3 ++ b2 ++ b1 ++ b0)) t) ∧
  (∀ (h : U32) (c : Byte) (t : List Byte), t.length < 3 → tail32 h (c :: t) = tail32 (tailByte32 h c) t)

/-- R116 to R119: the XXH64 tail takes 8-byte steps while 8 bytes remain, then a 4-byte step while 4 remain, then 1-byte
steps, from the front. -/
def Obligations.TailTakesLongsThenWordsThenBytes64 : Prop :=
  (∀ h, tail64 h [] = .ok h) ∧
  (∀ (h : U64) (b0 b1 b2 b3 b4 b5 b6 b7 : Byte) (t : List Byte),
    tail64 h (b0 :: b1 :: b2 :: b3 :: b4 :: b5 :: b6 :: b7 :: t)
      = tail64 (tailLong64 h (b7 ++ b6 ++ b5 ++ b4 ++ b3 ++ b2 ++ b1 ++ b0)) t) ∧
  (∀ (h : U64) (b0 b1 b2 b3 : Byte) (t : List Byte), t.length < 4 →
    tail64 h (b0 :: b1 :: b2 :: b3 :: t) = tail64 (tailWord64 h (b3 ++ b2 ++ b1 ++ b0)) t) ∧
  (∀ (h : U64) (c : Byte) (t : List Byte), t.length < 3 → tail64 h (c :: t) = tail64 (tailByte64 h c) t)

/-- R111 to R113, R120 to R123: the mixers, written out. The branch tests the full 64-bit length; XXH32 adds its low 32
bits; then the tail, then the avalanche. Below one block the lanes are not read. -/
def Obligations.MixersFollowTheirRules : Prop :=
  (∀ (v : Lanes 32) (seed : U32) (n : U64) (t : List Byte), ∃ h,
    tail32
      ((if 16 ≤ n.toNat then rotl v.v1 1 + rotl v.v2 7 + rotl v.v3 12 + rotl v.v4 18 else seed + 0x165667B1) +
        n.setWidth 32) t = .ok h ∧
    ∃ a b, a = (h ^^^ h >>> 15) * 0x85EBCA77 ∧ b = (a ^^^ a >>> 13) * 0xC2B2AE3D ∧
      mix32 v seed n t = .ok (b ^^^ b >>> 16)) ∧
  (∀ (v : Lanes 64) (seed : U64) (n : U64) (t : List Byte), ∃ h,
    tail64
      ((if 32 ≤ n.toNat then
          mergeRound64 (mergeRound64 (mergeRound64 (mergeRound64
            (rotl v.v1 1 + rotl v.v2 7 + rotl v.v3 12 + rotl v.v4 18) v.v1) v.v2) v.v3) v.v4
        else seed + 0x27D4EB2F165667C5) + n) t = .ok h ∧
    ∃ a b, a = (h ^^^ h >>> 33) * 0xC2B2AE3D27D4EB4F ∧ b = (a ^^^ a >>> 29) * 0x165667B19E3779F9 ∧
      mix64 v seed n t = .ok (b ^^^ b >>> 32)) ∧
  (∀ (v v' : Lanes 32) (seed : U32) (n : U64) (t : List Byte), n.toNat < 16 → mix32 v seed n t = mix32 v' seed n t) ∧
  (∀ (v v' : Lanes 64) (seed : U64) (n : U64) (t : List Byte), n.toNat < 32 → mix64 v seed n t = mix64 v' seed n t)

/-- R102, R104, R105, R114 to R118: the rotation, the 64-bit round, the merge round and the tail steps, written out with
the spec's own constants. -/
def Obligations.RoundsAndTailStepsFollowTheirRules : Prop :=
  (∀ (x : U32) (r : Nat), 0 < r → r < 32 → rotl x r = x.rotateLeft r) ∧
  (∀ (x : U64) (r : Nat), 0 < r → r < 64 → rotl x r = x.rotateLeft r) ∧
  (∀ v x : U64, round64 v x = (v + x * 0xC2B2AE3D27D4EB4F).rotateLeft 31 * 0x9E3779B185EBCA87) ∧
  (∀ h v : U64, mergeRound64 h v = (h ^^^ round64 0 v) * 0x9E3779B185EBCA87 + 0x85EBCA77C2B2AE63) ∧
  (∀ h w : U32, tailWord32 h w = (h + w * 0xC2B2AE3D).rotateLeft 17 * 0x27D4EB2F) ∧
  (∀ (h : U32) (c : Byte), tailByte32 h c = (h + c.setWidth 32 * 0x165667B1).rotateLeft 11 * 0x9E3779B1) ∧
  (∀ h w : U64, tailLong64 h w =
    (h ^^^ round64 0 w).rotateLeft 27 * 0x9E3779B185EBCA87 + 0x85EBCA77C2B2AE63) ∧
  (∀ (h : U64) (w : U32), tailWord64 h w =
    (h ^^^ w.setWidth 64 * 0x9E3779B185EBCA87).rotateLeft 23 * 0xC2B2AE3D27D4EB4F + 0x165667B19E3779F9) ∧
  (∀ (h : U64) (c : Byte), tailByte64 h c =
    (h ^^^ c.setWidth 64 * 0x27D4EB2F165667C5).rotateLeft 11 * 0x9E3779B185EBCA87)

/-- R103: `round32`, written out; and for a fixed lane it is a bijection of its input word, as by the same argument
`round64` is. -/
def Obligations.RoundIsABijectionOfItsWord : Prop :=
  (∀ v x : U32, round32 v x = (v + x * 0x85EBCA77).rotateLeft 13 * 0x9E3779B1) ∧
  (∀ v : U32, Function.Bijective (round32 v)) ∧ (∀ v : U64, Function.Bijective (round64 v))

/-! ## Frames, independence and order -/

/-- R29: a command of one width neither reads nor writes the other context, `CKSUM` and an error response neither read nor
write any. -/
def Obligations.CommandsTouchOnlyTheirOwnContext : Prop :=
  (∀ (i : Instr) (s : State) (c : Ctx 64), i.width = .w32 →
    exec i { s with ctx64 := c } = mapNext (fun t => { t with ctx64 := c }) (exec i s) ∧
      ∀ t, exec i s = .next t → t.ctx64 = s.ctx64) ∧
  (∀ (i : Instr) (s : State) (c : Ctx 32), i.width = .w64 →
    exec i { s with ctx32 := c } = mapNext (fun t => { t with ctx32 := c }) (exec i s) ∧
      ∀ t, exec i s = .next t → t.ctx32 = s.ctx32) ∧
  (∀ (i : Instr) (s : State) (c : Ctx 32) (d : Ctx 64), i.operation = .cksum →
    exec i { s with ctx32 := c, ctx64 := d } = mapNext (fun t => { t with ctx32 := c, ctx64 := d }) (exec i s) ∧
      ∀ t, exec i s = .next t → t.ctx32 = s.ctx32 ∧ t.ctx64 = s.ctx64) ∧
  (∀ (e : CmdError) (s : State) (c : Ctx 32) (d : Ctx 64),
    raiseCmdError { s with ctx32 := c, ctx64 := d } e = { raiseCmdError s e with ctx32 := c, ctx64 := d } ∧
      (raiseCmdError s e).ctx32 = s.ctx32 ∧ (raiseCmdError s e).ctx64 = s.ctx64)

/-- R23: only `INIT` of the context's width writes its seed, and power-on reset sets it; no other command, no error
response and no other host action does. -/
def Obligations.OnlyInitWritesTheSeed : Prop :=
  (∀ (i : Instr) (s t : State), exec i s = .next t →
    ((∀ seed, i ≠ .init32 seed) → t.ctx32.seed = s.ctx32.seed) ∧
    ((∀ seed, i ≠ .init64 seed) → t.ctx64.seed = s.ctx64.seed)) ∧
  (∀ seed s t, exec (.init32 seed) s = .next t → t.ctx32.seed = seed) ∧
  (∀ seed s t, exec (.init64 seed) s = .next t → t.ctx64.seed = seed) ∧
  (∀ (e : CmdError) (s : State),
    (raiseCmdError s e).ctx32.seed = s.ctx32.seed ∧ (raiseCmdError s e).ctx64.seed = s.ctx64.seed) ∧
  (∀ (s : State) (a : HostAction), a ≠ .powerOnReset →
    (hostAct s a).ctx32.seed = s.ctx32.seed ∧ (hostAct s a).ctx64.seed = s.ctx64.seed) ∧
  (∀ s : State, (hostAct s .powerOnReset).ctx32.seed = 0 ∧ (hostAct s .powerOnReset).ctx64.seed = 0)

/-- R24, R25, R27, R192: a command that is not `INIT`, `RESET` or `WRITE` of a context's width leaves that context as it
was: seed, lanes, counter, buffer and phase. No command touches the command port, and none removes or changes a response
already in the queue. -/
def Obligations.OnlyWritersChangeAContext : Prop :=
  ∀ (i : Instr) (s t : State), exec i s = .next t →
    (¬ Writes .w32 i → t.ctx32 = s.ctx32) ∧ (¬ Writes .w64 i → t.ctx64 = s.ctx64) ∧
    t.cmdIn = s.cmdIn ∧ ∃ later, t.rspOut = s.rspOut ++ later

/-- R163, R164, R166, R190 to R192, R144 to R147: from states in range, every command but `INIT`, `RESET` and `WRITE`
changes nothing but the response queue, which gets one packet. -/
def Obligations.QueriesOnlyAddAResponse : Prop :=
  ∀ (i : Instr) (s : State), s.BuffersInRange → i.writesContext = false →
    ∃ packet, exec i s = .next { s with rspOut := s.rspOut ++ [packet] }

/-- R30, R84: no command's effect or response depends on the responses before it or on the bytes behind it on the command
port: with other port contents it does the same and appends the same. -/
def Obligations.CommandsReadNoPortState : Prop :=
  ∀ (i : Instr) (s : State) (cmdIn : List Byte) (rspOut : List (List Byte)),
    exec i { s with cmdIn := cmdIn, rspOut := rspOut } =
      mapNext (fun t => { t with cmdIn := cmdIn, rspOut := rspOut ++ t.rspOut.drop s.rspOut.length }) (exec i s)

/-- R165: two `SUM`s of a width with no `INIT`, `RESET` or `WRITE` of that width between them answer the same packet,
whatever else comes between. -/
def Obligations.SumIsIdempotent : Prop :=
  (∀ s t u : State, s.ctx32.buf.length < 16 → exec .sum32 s = .next t → Quiet .w32 t u →
    ∃ packet v, t.rspOut = s.rspOut ++ [packet] ∧ exec .sum32 u = .next v ∧ v.rspOut = u.rspOut ++ [packet]) ∧
  (∀ s t u : State, s.ctx64.buf.length < 32 → exec .sum64 s = .next t → Quiet .w64 t u →
    ∃ packet v, t.rspOut = s.rspOut ++ [packet] ∧ exec .sum64 u = .next v ∧ v.rspOut = u.rspOut ++ [packet])

/-- R192: a `CKSUM` of either width put between two commands of a sequence changes neither the contexts the sequence ends
with nor any of its responses; it only adds its own response in its place. -/
def Obligations.CksumDisturbsNoSequence : Prop :=
  ∀ (before after : List Instr) (c : Instr) (s u : State), c.operation = .cksum →
    execAll (before ++ after) s = .next u →
    ∃ m w packet, execAll before s = .next m ∧ execAll (before ++ c :: after) s = .next w ∧
      w.ctx32 = u.ctx32 ∧ w.ctx64 = u.ctx64 ∧ w.fault = u.fault ∧
      ∃ later, u.rspOut = m.rspOut ++ later ∧ w.rspOut = m.rspOut ++ packet :: later

/-- R28, R167: two `WRITE`s in a row leave the context exactly as one `WRITE` of both payloads does. That a payload of 2^64
bytes or more counts its length modulo 2^64 is the model's choice (log entry 9). -/
def Obligations.TwoWritesAreOneWrite : Prop :=
  (∀ (s t u w : State) (a b : List Byte), s.ctx32.buf.length < 16 → exec (.write32 a) s = .next t →
    exec (.write32 b) t = .next u → exec (.write32 (a ++ b)) s = .next w → u.ctx32 = w.ctx32) ∧
  (∀ (s t u w : State) (a b : List Byte), s.ctx64.buf.length < 32 → exec (.write64 a) s = .next t →
    exec (.write64 b) t = .next u → exec (.write64 (a ++ b)) s = .next w → u.ctx64 = w.ctx64)

/-- R167: `INIT`, then `WRITE` of each chunk of any split of a byte sequence, then `SUM` answers the digest that `CKSUM`
of the whole sequence answers in any state; so at both widths. R167 has the proviso that the sequence is shorter than 2^64
bytes; that the two agree on a longer one too rests on the model's choice that a command counts its payload's length modulo
2^64 (log entry 9). -/
def Obligations.ChunkedStreamEqualsOneShot : Prop :=
  (∀ (seed : U32) (chunks : List (List Byte)) (s : State), ∃ digest t, digest.length = 4 ∧
    execAll (.init32 seed :: (chunks.map Instr.write32 ++ [.sum32])) s = .next t ∧
    t.rspOut = s.rspOut ++ ([0x00] :: (chunks.map (fun c => 0x00 :: beBytes 8 (lenOf c)) ++ [0x00 :: digest])) ∧
    ∀ u : State, exec (.cksum32 seed chunks.flatten) u = .next { u with rspOut := u.rspOut ++ [0x00 :: digest] }) ∧
  (∀ (seed : U64) (chunks : List (List Byte)) (s : State), ∃ digest t, digest.length = 8 ∧
    execAll (.init64 seed :: (chunks.map Instr.write64 ++ [.sum64])) s = .next t ∧
    t.rspOut = s.rspOut ++ ([0x00] :: (chunks.map (fun c => 0x00 :: beBytes 8 (lenOf c)) ++ [0x00 :: digest])) ∧
    ∀ u : State, exec (.cksum64 seed chunks.flatten) u = .next { u with rspOut := u.rspOut ++ [0x00 :: digest] })

/-! ## Invariants and runs -/

/-- R36: every field of the state after power-on reset. -/
def Obligations.ResetLeavesTheStatedValues : Prop :=
  State.reset =
    { ctx32 :=
        { seed := 0
          v := { v1 := 0x24234428, v2 := 0x85EBCA77, v3 := 0, v4 := 0x61C8864F }
          totalLength := 0
          buf := []
          phase := .initialized }
      ctx64 :=
        { seed := 0
          v := { v1 := 0x60EA27EEADC0B5D6, v2 := 0xC2B2AE3D27D4EB4F, v3 := 0, v4 := 0x61C8864E7A143579 }
          totalLength := 0
          buf := []
          phase := .initialized }
      cmdIn := []
      rspOut := []
      fault := none } ∧
  State.reset.ctx32.v = init32 0 ∧ State.reset.ctx64.v = init64 0

/-- R27, R28: commands executed one after the other leave each context what its history makes of it: the lanes with exactly
the complete blocks of the payloads written since its last `INIT` or `RESET` applied in order, the counter with their
total length modulo 2^64, and the buffer with the bytes after the last complete block, fewer than `BS(W)`. That a `WRITE` of
2^64 bytes or more, which no packet spells, counts its length modulo 2^64 is the model's choice (log entry 9). -/
def Obligations.ContextsFollowTheirHistory : Prop :=
  ∀ (commands : List Instr) (s t : State) (S32 S64 : List Byte), Streams32 s.ctx32 S32 → Streams64 s.ctx64 S64 →
    execAll commands s = .next t →
    Streams32 t.ctx32 (historyAfter .w32 S32 commands) ∧ Streams64 t.ctx64 (historyAfter .w64 S64 commands) ∧
    t.BuffersInRange ∧ t.LengthsAgree

/-- R27 (b), (c) and R28 hold at power-on reset: both contexts are what the empty history of payloads makes of them. -/
def Obligations.ResetStateIsAccounted : Prop := Streams32 State.reset.ctx32 [] ∧ Streams64 State.reset.ctx64 []

/-- R27, R28, R29: every step keeps both contexts what the payloads written to them since their last `INIT` or `RESET` make
of them. From a state whose contexts are what the histories `S32` and `S64` make of them, a step records no fault; where it
runs a command, the contexts are what the histories with that command make of them (its payload added by `WRITE`, emptied by
`INIT` and `RESET`, otherwise the same); where it answers a malformed header byte, they are unchanged. -/
def Obligations.EveryStepKeepsContextsAccounted : Prop :=
  ∀ (s t : State) (S32 S64 : List Byte), Streams32 s.ctx32 S32 → Streams64 s.ctx64 S64 → step s = .next t →
    t.fault = none ∧
    ((∃ i rest, decode s.cmdIn = .command i rest ∧
        Streams32 t.ctx32 (historyStep .w32 S32 i) ∧ Streams64 t.ctx64 (historyStep .w64 S64 i)) ∨
      (∃ e rest, decode s.cmdIn = .malformed e rest ∧ t.ctx32 = s.ctx32 ∧ t.ctx64 = s.ctx64))

/-- R27 (a), R28: contexts that are what their payloads make of them have fewer than `BS(W)` buffered bytes, as many as
the counter modulo `BS(W)`. -/
def Obligations.AccountedContextsObeyTheLengthLaw : Prop :=
  ∀ s : State, s.Accounted → s.BuffersInRange ∧ s.LengthsAgree

/-- R27 (a), R28: every step keeps the length law by itself: from any state in range with
`len(buf) = total_length mod BS(W)` in both contexts, whatever the lanes and even across the counter's wrap. -/
def Obligations.EveryStepKeepsTheLengthLaw : Prop :=
  ∀ s t : State, s.BuffersInRange ∧ s.LengthsAgree → step s = .next t → t.BuffersInRange ∧ t.LengthsAgree

/-- R35, R246: neither a step nor a host action takes the response queue over its capacity. -/
def Obligations.ResponseQueueStaysInItsDepth : Prop :=
  (∀ s t : State, s.QueueInDepth → step s = .next t → t.QueueInDepth) ∧
  (∀ (s : State) (a : HostAction), s.QueueInDepth → (hostAct s a).QueueInDepth) ∧
  State.reset.QueueInDepth

/-- R27, R28, R214: however engine and host interleave from power-on, with whatever bytes, no invariant fault is ever
recorded, both contexts are what the packets consumed since power-on make of them, and the response queue stays in its
depth. That a power-on reset begins the record of what is consumed anew is the model's choice (log entry 10). -/
def Obligations.NoRunFromPowerOnFaults : Prop :=
  ∀ events : List Event, (systemRun System.start events).core.fault = none ∧
    Streams32 (systemRun System.start events).core.ctx32 (historyOf .w32 (systemRun System.start events).consumed) ∧
    Streams64 (systemRun System.start events).core.ctx64 (historyOf .w64 (systemRun System.start events).consumed) ∧
    (systemRun System.start events).core.QueueInDepth

/-- R63, R84, R246, R249: how the host splits its bytes and when it takes responses changes nothing. Two runs from the
same system without a power-on reset that send the same bytes and consume them all end with the same responses in the
same order and the same contexts. -/
def Obligations.HostTimingChangesNoResult : Prop :=
  ∀ (y : System) (events₁ events₂ : List Event), y.core.fault = none → y.core.BuffersInRange →
    ResetFree events₁ → ResetFree events₂ → sentBytes events₁ = sentBytes events₂ →
    (systemRun y events₁).core.cmdIn = [] → (systemRun y events₂).core.cmdIn = [] →
    (systemRun y events₁).responses = (systemRun y events₂).responses ∧
    (systemRun y events₁).core.ctx32 = (systemRun y events₂).core.ctx32 ∧
    (systemRun y events₁).core.ctx64 = (systemRun y events₂).core.ctx64

/-- R247: the host reaches no context: sending bytes only appends them to the command port, and taking a response only
removes the oldest packet, which is what the host gets. -/
def Obligations.HostReachesOnlyThePorts : Prop :=
  (∀ (s : State) (bytes : List Byte), hostAct s (.send bytes) = { s with cmdIn := s.cmdIn ++ bytes }) ∧
  (∀ (s : State) (packet : List Byte) (later : List (List Byte)), s.rspOut = packet :: later →
    hostTake s = some (packet, { s with rspOut := later }) ∧ hostAct s .take = { s with rspOut := later }) ∧
  (∀ s : State, s.rspOut = [] → hostTake s = none ∧ hostAct s .take = s)

/-- R240 to R242: power-on reset puts every piece of state at its reset value, discarding a partial packet and untaken
responses. That it discards whole packets still waiting too is the model's choice (log entry 12), and so is that the model's
own fault record stays (log entry 6). -/
def Obligations.PowerOnResetDiscardsEverything : Prop :=
  ∀ s : State, hostAct s .powerOnReset = { State.reset with fault := s.fault } ∧
    (s.fault = none → hostAct s .powerOnReset = State.reset)

/-- R249: a run on the stream `P` is finished exactly when every byte of `P` is consumed with nothing pending, the responses
so far answer the packets of `P` one by one, and the state is not faulted; its final state is then the two contexts and the
responses. With the parser short of a packet, or the queue full before the last byte (R215, R246), it is held; with an
invariant fault it is faulted. Three clauses rest on the model's reading or choice: that a full queue holds a malformed
header byte too (log entry 7), that a buffer out of range is faulted before the fault is recorded (R27; log entry 5), and that
a power-on reset empties the run's record, so that no run on a non-empty `P` is finished after it (log entry 10). -/
def Obligations.RunStatusFollowsTheDefinition : Prop :=
  ∀ (P : List Byte) (y : System),
    (runStatus P y = .finished ↔ y.core.fault = none ∧ y.core.BuffersInRange ∧ y.consumed = P ∧ y.core.cmdIn = [] ∧
      List.Forall₂ (fun packet response => answers packet response = true) (packetsOf P) y.responses) ∧
    (∀ r, runResult P y = some r ↔ runStatus P y = .finished ∧
      r = { ctx32 := y.core.ctx32, ctx64 := y.core.ctx64, responses := y.responses }) ∧
    (y.core.Ready → decode y.core.cmdIn = .incomplete → (y.core.cmdIn ≠ [] ∨ y.consumed ≠ P) →
      runStatus P y = .held .heldIncompletePacket) ∧
    (y.core.fault = none → y.core.BuffersInRange → y.core.rspOut.length = Config.rspDepth → y.core.cmdIn ≠ [] →
      runStatus P y = .held .heldResponseQueueFull) ∧
    (∀ what, y.core.fault = some what → runStatus P y = .faulted what) ∧
    (∀ what, y.core.fault = none → brokenContext y.core = some what → runStatus P y = .faulted what) ∧
    (runStatus P y = .running → ∃ t, step y.core = .next t) ∧
    (P ≠ [] → runStatus P (systemStep y (.host .powerOnReset)) ≠ .finished)

/-- R84, R249: however the host's bytes and turns interleave with the engine's, a run from power-on in which all the bytes
sent have been consumed is finished: the response of every packet of the stream is there, each of its packet's form. -/
def Obligations.EveryConsumedStreamIsFinished : Prop :=
  ∀ events : List Event, ResetFree events → (systemRun System.start events).core.cmdIn = [] →
    runStatus (sentBytes events) (systemRun System.start events) = .finished

/-- R63, R240, R249: the final state of a run depends on its command stream alone: any two runs from power-on, with whatever
turns, transfers and power-on resets before or between, that are finished on the same stream have the same final state. Runs
with a power-on reset are among them by the model's choice that a reset begins a new run and empties the record of what was
consumed and answered (log entry 10). -/
def Obligations.FinishedRunsAgree : Prop :=
  ∀ (P : List Byte) (events₁ events₂ : List Event),
    runStatus P (systemRun System.start events₁) = .finished → runStatus P (systemRun System.start events₂) = .finished →
    runResult P (systemRun System.start events₁) = runResult P (systemRun System.start events₂)

/-! ## The assembler -/

/-- R91: what the pseudo-instructions expand to and the bytes they and `.byte` put on the command stream. That a data operand
of 2^64 bytes or more is not refused, and what it is encoded as, is the model's choice (log entry 11). -/
def Obligations.PseudoInstructionsExpand : Prop :=
  (∀ seed, assemble (.new32 seed) = encode (.init32 seed)) ∧
  (∀ seed, assemble (.new64 seed) = encode (.init64 seed)) ∧
  (∀ data, assemble (.cksum32Unseeded data) = encode (.cksum32 0 data)) ∧
  (∀ data, assemble (.cksum64Unseeded data) = encode (.cksum64 0 data)) ∧
  (∀ seed data, assemble (.hash32 seed data) = encode (.init32 seed) ++ encode (.write32 data) ++ encode .sum32) ∧
  (∀ seed data, assemble (.hash64 seed data) = encode (.init64 seed) ++ encode (.write64 data) ++ encode .sum64) ∧
  (∀ bytes, assemble (.byte bytes) = bytes)
end

