-- ==== Sys2Proof/Laws/Bytes.lean ====
section
/-!
SUPPORT. Little-endian words as numbers (spec/20_memory.md R52): what `leWord` and `leBytes` are in terms of `Nat`, that
each undoes the other, and what taking a field or a payload from the front of its own encoding answers.
-/

namespace Sys2Proof

/-- The number a byte sequence stands for, first byte least significant. -/
def leNat : List Byte → Nat
  | [] => 0
  | b :: bs => b.toNat + 256 * leNat bs

theorem leNat_lt (bs : List Byte) : leNat bs < 256 ^ bs.length := by
  induction bs with
  | nil => simp [leNat]
  | cons b bs ih =>
    have := b.isLt
    simp only [leNat, List.length_cons, Nat.pow_succ]
    omega

theorem leWord_eq_ofNat (w : Nat) (bs : List Byte) : leWord w bs = BitVec.ofNat w (leNat bs) := by
  induction bs with
  | nil => rfl
  | cons b bs ih =>
    rw [leWord, ih, leNat, BitVec.ofNat_add, Nat.mul_comm]
    congr 1
    · apply BitVec.eq_of_toNat_eq
      simp
    · apply BitVec.eq_of_toNat_eq
      rw [BitVec.toNat_shiftLeft, BitVec.toNat_ofNat, BitVec.toNat_ofNat, Nat.shiftLeft_eq, Nat.mod_mul_mod]

theorem leWord_toNat {n : Nat} (bs : List Byte) (h : bs.length = n) : (leWord (8 * n) bs).toNat = leNat bs := by
  rw [leWord_eq_ofNat, BitVec.toNat_ofNat, Nat.mod_eq_of_lt]
  have := leNat_lt bs
  rwa [h, show (256 : Nat) = 2 ^ 8 from rfl, ← Nat.pow_mul] at this

@[simp] theorem leBytes_length {w : Nat} (n : Nat) (v : BitVec w) : (leBytes n v).length = n := by
  induction n generalizing v with
  | zero => rfl
  | succ n ih => simp [leBytes, ih]

theorem leNat_leBytes {w : Nat} (n : Nat) (v : BitVec w) : leNat (leBytes n v) = v.toNat % 256 ^ n := by
  induction n generalizing v with
  | zero => simp [leBytes, leNat, Nat.mod_one]
  | succ n ih =>
    have hp : (256 : Nat) ^ (n + 1) = 2 ^ 8 * 256 ^ n := by rw [Nat.pow_succ', show (256 : Nat) = 2 ^ 8 from rfl]
    rw [leBytes, leNat, ih, BitVec.toNat_setWidth, BitVec.toNat_ushiftRight, Nat.shiftRight_eq_div_pow, hp, Nat.mod_mul,
      show (256 : Nat) = 2 ^ 8 from rfl]

/-- The word of a value's own bytes is the value. -/
theorem leWord_leBytes (n : Nat) (v : BitVec (8 * n)) : leWord (8 * n) (leBytes n v) = v := by
  apply BitVec.eq_of_toNat_eq
  rw [leWord_toNat _ (leBytes_length n v), leNat_leBytes, show (256 : Nat) = 2 ^ 8 from rfl, ← Nat.pow_mul]
  exact Nat.mod_eq_of_lt v.isLt

theorem leNat_inj {a b : List Byte} (hl : a.length = b.length) (h : leNat a = leNat b) : a = b := by
  induction a generalizing b with
  | nil => simpa using hl.symm
  | cons x xs ih =>
    cases b with
    | nil => simp at hl
    | cons y ys =>
      have hx := x.isLt
      have hy := y.isLt
      simp only [leNat] at h
      have h1 : x = y := BitVec.eq_of_toNat_eq (by omega)
      rw [h1, ih (by simpa using hl) (by omega)]

/-- The bytes of a word's own value are the bytes it was read from. -/
theorem leBytes_leWord (n : Nat) (bs : List Byte) (h : bs.length = n) : leBytes n (leWord (8 * n) bs) = bs := by
  apply leNat_inj (by simp [h])
  rw [leNat_leBytes, leWord_toNat bs h, ← h]
  exact Nat.mod_eq_of_lt (leNat_lt bs)

/-! ## Fields and payloads -/

/-- A field of 32 bits at the front of its own bytes. -/
theorem takeField_leBytes_32 (v : U32) (rest : List Byte) : takeField 32 (leBytes 4 v ++ rest) = some (v, rest) := by
  have h := leWord_leBytes 4 v
  simp [takeField, h]

/-- A field of 64 bits at the front of its own bytes. -/
theorem takeField_leBytes_64 (v : U64) (rest : List Byte) : takeField 64 (leBytes 8 v ++ rest) = some (v, rest) := by
  have h := leWord_leBytes 8 v
  simp [takeField, h]

/-- A payload at the front of its own encoding, where its length fits the `LEN` field. -/
theorem takePayload_encodeData (data rest : List Byte) (h : data.length < 2 ^ 64) :
    takePayload (encodeData data ++ rest) = some (data, rest) := by
  have hm : data.length % 18446744073709551616 = data.length := Nat.mod_eq_of_lt h
  rw [takePayload, encodeData, List.append_assoc, takeField_leBytes_64]
  simp [hm]

/-- Everything `takeField` can answer: the field's word, from the field's bytes, and the bytes after them. -/
theorem takeField_eq_some {w : Nat} {bytes rest : List Byte} {v : BitVec w} :
    takeField w bytes = some (v, rest) ↔
      ∃ field, field.length = w / 8 ∧ bytes = field ++ rest ∧ v = leWord w field := by
  constructor
  · intro h
    unfold takeField at h
    split at h
    · simp only [Option.some.injEq, Prod.mk.injEq] at h
      refine ⟨bytes.take (w / 8), ?_, ?_, h.1.symm⟩
      · simpa using ‹_›
      · rw [← h.2, List.take_append_drop]
    · cases h
  · rintro ⟨field, hl, rfl, rfl⟩
    simp [takeField, ← hl]

/-- Taking a field never leaves more bytes than there were. -/
theorem takeField_length_le {w : Nat} {bytes rest : List Byte} {v : BitVec w} (h : takeField w bytes = some (v, rest)) :
    rest.length ≤ bytes.length := by
  obtain ⟨field, -, rfl, -⟩ := takeField_eq_some.mp h
  simp

/-- A field is missing exactly while fewer than its bytes are there. -/
theorem takeField_eq_none {w : Nat} {bytes : List Byte} : takeField w bytes = none ↔ bytes.length < w / 8 := by
  unfold takeField
  split <;> simp <;> omega

/-- Everything `takePayload` can answer: the payload that its `LEN` field counts, and the bytes after it. -/
theorem takePayload_eq_some {bytes data rest : List Byte} :
    takePayload bytes = some (data, rest) ↔ data.length < 2 ^ 64 ∧ bytes = encodeData data ++ rest := by
  constructor
  · intro h
    unfold takePayload at h
    split at h
    · cases h
    · rename_i len after hf
      obtain ⟨field, hl, rfl, rfl⟩ := takeField_eq_some.mp hf
      split at h
      · rename_i hle
        simp only [Option.some.injEq, Prod.mk.injEq] at h
        obtain ⟨rfl, rfl⟩ := h
        have hlen : (List.take (leWord 64 field).toNat after).length = (leWord 64 field).toNat := by
          simpa using hle
        have hbytes := leBytes_leWord 8 field hl
        refine ⟨by rw [hlen]; exact (leWord 64 field).isLt, ?_⟩
        rw [encodeData, hlen, BitVec.ofNat_toNat, BitVec.setWidth_eq, hbytes, List.append_assoc,
          List.take_append_drop]
      · cases h
  · rintro ⟨h, rfl⟩
    exact takePayload_encodeData data rest h

/-- Taking a payload never leaves more bytes than there were. -/
theorem takePayload_length_le {bytes data rest : List Byte} (h : takePayload bytes = some (data, rest)) :
    rest.length ≤ bytes.length := by
  obtain ⟨-, rfl⟩ := takePayload_eq_some.mp h
  simp

end Sys2Proof
end

