-- ==== Sys2Proof/Laws/State.lean ====
section
/-!
SUPPORT. One lemma per field per named update of the state: what `respond`, `recordFault`, `raiseCmdError`, the host's
actions and `newCtx` make of every field.
-/

namespace Sys2Proof.Machine

section Respond
variable (s : State) (status : Status) (value : List Byte)

@[simp] theorem respond_ctx32 : (respond s status value).ctx32 = s.ctx32 := rfl
@[simp] theorem respond_ctx64 : (respond s status value).ctx64 = s.ctx64 := rfl
@[simp] theorem respond_cmdIn : (respond s status value).cmdIn = s.cmdIn := rfl
@[simp] theorem respond_rspOut : (respond s status value).rspOut = s.rspOut ++ [statusByte status :: value] := rfl
@[simp] theorem respond_fault : (respond s status value).fault = s.fault := rfl

end Respond

section RecordFault
variable (s : State) (what : InvariantFault)

@[simp] theorem recordFault_ctx32 : (recordFault s what).ctx32 = s.ctx32 := rfl
@[simp] theorem recordFault_ctx64 : (recordFault s what).ctx64 = s.ctx64 := rfl
@[simp] theorem recordFault_cmdIn : (recordFault s what).cmdIn = s.cmdIn := rfl
@[simp] theorem recordFault_rspOut : (recordFault s what).rspOut = s.rspOut := rfl
@[simp] theorem recordFault_fault : (recordFault s what).fault = some what := rfl

end RecordFault

section RaiseCmdError
variable (s : State) (e : CmdError)

@[simp] theorem raiseCmdError_ctx32 : (raiseCmdError s e).ctx32 = s.ctx32 := rfl
@[simp] theorem raiseCmdError_ctx64 : (raiseCmdError s e).ctx64 = s.ctx64 := rfl
@[simp] theorem raiseCmdError_cmdIn : (raiseCmdError s e).cmdIn = s.cmdIn.drop 1 := rfl
@[simp] theorem raiseCmdError_rspOut : (raiseCmdError s e).rspOut = s.rspOut ++ [[statusByte (.error e)]] := rfl
@[simp] theorem raiseCmdError_fault : (raiseCmdError s e).fault = s.fault := rfl

end RaiseCmdError

section HostSend
variable (s : State) (bytes : List Byte)

@[simp] theorem hostSend_ctx32 : (hostSend s bytes).ctx32 = s.ctx32 := rfl
@[simp] theorem hostSend_ctx64 : (hostSend s bytes).ctx64 = s.ctx64 := rfl
@[simp] theorem hostSend_cmdIn : (hostSend s bytes).cmdIn = s.cmdIn ++ bytes := rfl
@[simp] theorem hostSend_rspOut : (hostSend s bytes).rspOut = s.rspOut := rfl
@[simp] theorem hostSend_fault : (hostSend s bytes).fault = s.fault := rfl

end HostSend

section PowerOnReset
variable (s : State)

@[simp] theorem powerOnReset_ctx32 : (powerOnReset s).ctx32 = State.reset.ctx32 := rfl
@[simp] theorem powerOnReset_ctx64 : (powerOnReset s).ctx64 = State.reset.ctx64 := rfl
@[simp] theorem powerOnReset_cmdIn : (powerOnReset s).cmdIn = [] := rfl
@[simp] theorem powerOnReset_rspOut : (powerOnReset s).rspOut = [] := rfl
@[simp] theorem powerOnReset_fault : (powerOnReset s).fault = s.fault := rfl

end PowerOnReset

section NewCtx
variable {w : Nat} (lanes : BitVec w → Lanes w) (seed : BitVec w)

@[simp] theorem newCtx_seed : (newCtx lanes seed).seed = seed := rfl
@[simp] theorem newCtx_v : (newCtx lanes seed).v = lanes seed := rfl
@[simp] theorem newCtx_totalLength : (newCtx lanes seed).totalLength = 0 := rfl
@[simp] theorem newCtx_buf : (newCtx lanes seed).buf = [] := rfl
@[simp] theorem newCtx_phase : (newCtx lanes seed).phase = .initialized := rfl

end NewCtx

section Sizes

@[simp] theorem blockSize_w32 : blockSize .w32 = 16 := rfl
@[simp] theorem blockSize_w64 : blockSize .w64 = 32 := rfl
@[simp] theorem digestSize_w32 : digestSize .w32 = 4 := rfl
@[simp] theorem digestSize_w64 : digestSize .w64 = 8 := rfl
@[simp] theorem seedSize_w32 : seedSize .w32 = 4 := rfl
@[simp] theorem seedSize_w64 : seedSize .w64 = 8 := rfl

end Sizes

end Sys2Proof.Machine
end

