-- ==== Sys2Proof/Laws/Datapath.lean ====
section
/-!
SUPPORT. What the byte-reading functions of the datapath answer: in range, none of them raises the reader's invariant
fault (spec/20_memory.md R52, spec/60_exceptions.md R214), and each loop is a fold over the chunks of its bytes
(spec/40_mixing_functions.md R110, R119).
-/

namespace Sys2Proof.Machine

/-! ## The byte reader -/

/-- In range, the byte reader answers the word; out of range, its invariant fault (R52). -/
theorem memRead_ok {w : Nat} {src : List Byte} {i : Nat} (h : i + w / 8 ≤ src.length) :
    memRead w src i = .ok (leWord w ((src.drop i).take (w / 8))) := by simp [memRead, h]

/-- A read inside a window of the source is the same read of the window. -/
theorem memRead_window {w n k o : Nat} {src : List Byte} (hk : k + w / 8 ≤ n) (h : o + n ≤ src.length) :
    memRead w src (o + k) = .ok (leWord w ((((src.drop o).take n).drop k).take (w / 8))) := by
  rw [memRead_ok (by omega), ← List.drop_drop, List.drop_take, List.take_take, Nat.min_eq_left (by omega)]

/-! ## Loops -/

/-- A function folded over the first `k` chunks of `n` bytes. -/
def foldChunks {α : Type} (n : Nat) (f : α → List Byte → α) : Nat → α → List Byte → α
  | 0, a, _ => a
  | k + 1, a, d => foldChunks n f k (f a (d.take n)) (d.drop n)

/-- The fold over `k + j` chunks goes on, after the first `k` chunks, on the bytes after them. -/
theorem foldChunks_append {α : Type} {n : Nat} {f : α → List Byte → α} {k j : Nat} {a : α} {x y : List Byte}
    (hx : x.length = n * k) : foldChunks n f (k + j) a (x ++ y) = foldChunks n f j (foldChunks n f k a x) y := by
  induction k generalizing a x with
  | zero =>
    obtain rfl : x = [] := by simpa using hx
    simp [foldChunks]
  | succ k ih =>
    have hn : n ≤ x.length := by rw [hx]; exact Nat.le_mul_of_pos_right n k.succ_pos
    rw [Nat.add_right_comm, foldChunks, foldChunks, List.take_append_of_le_length hn, List.drop_append_of_le_length hn,
      ih (by rw [List.length_drop, hx, Nat.mul_succ, Nat.add_sub_cancel])]

/-- The fold reads no byte after its chunks. -/
theorem foldChunks_take {α : Type} {n : Nat} {f : α → List Byte → α} {k : Nat} {a : α} {d : List Byte}
    (hd : n * k ≤ d.length) : foldChunks n f k a d = foldChunks n f k a (d.take (n * k)) := by
  have h := foldChunks_append (f := f) (a := a) (j := 0) (y := d.drop (n * k))
    (show (d.take (n * k)).length = n * k by simpa using hd)
  rwa [List.take_append_drop] at h

/-- Everything a loop can do when its step never leaves the bytes: the fold over every whole chunk from `i` on, and the
offset after them. -/
theorem chunkLoop_ok {α : Type} {n : Nat} {stepAt : α → List Byte → Nat → Except InvariantFault α}
    {f : α → List Byte → α} {d : List Byte} (hn : 0 < n)
    (hstep : ∀ a i, i + n ≤ d.length → stepAt a d i = .ok (f a ((d.drop i).take n))) (fuel : Nat) (a : α) (i : Nat)
    (hi : i ≤ d.length) (hf : d.length - i ≤ fuel) :
    chunkLoop n stepAt d fuel a i
      = .ok (foldChunks n f ((d.length - i) / n) a (d.drop i), i + n * ((d.length - i) / n)) := by
  induction fuel generalizing a i with
  | zero =>
    have h0 : d.length - i = 0 := by omega
    simp [chunkLoop, foldChunks, h0, pure, Except.pure]
  | succ fuel ih =>
    unfold chunkLoop
    split
    · rename_i hle
      have hdiv : (d.length - i) / n = (d.length - (i + n)) / n + 1 := by
        rw [Nat.div_eq_sub_div hn (by omega), Nat.sub_sub]
      rw [hstep a i hle]
      simp only [bind, Except.bind]
      rw [ih _ _ hle (by omega), hdiv, foldChunks, List.drop_drop, Nat.mul_succ]
      congr 2
      omega
    · have h0 : (d.length - i) / n = 0 := Nat.div_eq_of_lt (by omega)
      simp [foldChunks, h0, pure, Except.pure]

/-! ## Blocks -/

/-- A block's four lane rounds on a chunk that holds exactly the block (R108, R109). -/
def mixChunk {w : Nat} (round : BitVec w → BitVec w → BitVec w) (v : Lanes w) (chunk : List Byte) : Lanes w :=
  { v1 := round v.v1 (leWord w (chunk.take (w / 8)))
    v2 := round v.v2 (leWord w ((chunk.drop (w / 8)).take (w / 8)))
    v3 := round v.v3 (leWord w ((chunk.drop (2 * (w / 8))).take (w / 8)))
    v4 := round v.v4 (leWord w ((chunk.drop (3 * (w / 8))).take (w / 8))) }

/-- A block in range is mixed, and nothing outside it is read. -/
theorem mixBlock_ok {w : Nat} {round : BitVec w → BitVec w → BitVec w} {v : Lanes w} {b : List Byte} {o : Nat}
    (h : o + 4 * (w / 8) ≤ b.length) :
    mixBlock round v b o = .ok (mixChunk round v ((b.drop o).take (4 * (w / 8)))) := by
  have h1 := memRead_window (w := w) (k := 0) (by omega) h
  have h2 := memRead_window (w := w) (k := w / 8) (by omega) h
  have h3 := memRead_window (w := w) (k := 2 * (w / 8)) (by omega) h
  have h4 := memRead_window (w := w) (k := 3 * (w / 8)) (by omega) h
  rw [Nat.add_zero, List.drop_zero] at h1
  simp only [mixBlock, h1, h2, h3, h4, bind, Except.bind, pure, Except.pure, mixChunk]

theorem block32_ok {v : Lanes 32} {b : List Byte} {o : Nat} (h : o + 16 ≤ b.length) :
    block32 v b o = .ok (mixChunk round32 v ((b.drop o).take 16)) := mixBlock_ok h

theorem block64_ok {v : Lanes 64} {b : List Byte} {o : Nat} (h : o + 32 ≤ b.length) :
    block64 v b o = .ok (mixChunk round64 v ((b.drop o).take 32)) := mixBlock_ok h

/-- `absorb32` mixes every complete block, in order, and answers the offset after them (R110). -/
theorem absorb32_ok (v : Lanes 32) (d : List Byte) :
    absorb32 v d = .ok (foldChunks 16 (mixChunk round32) (d.length / 16) v d, 16 * (d.length / 16)) := by
  have h := chunkLoop_ok (n := 16) (d := d) (by omega) (fun a i hi => block32_ok (v := a) hi) d.length v 0
    (Nat.zero_le _) (by omega)
  simpa [absorb32] using h

/-- `absorb64` mixes every complete block, in order, and answers the offset after them (R110). -/
theorem absorb64_ok (v : Lanes 64) (d : List Byte) :
    absorb64 v d = .ok (foldChunks 32 (mixChunk round64) (d.length / 32) v d, 32 * (d.length / 32)) := by
  have h := chunkLoop_ok (n := 32) (d := d) (by omega) (fun a i hi => block64_ok (v := a) hi) d.length v 0
    (Nat.zero_le _) (by omega)
  simpa [absorb64] using h

/-! ## Tails and mixers -/

/-- A tail step in range reads exactly its word (R114 to R118). -/
theorem tailAt_ok {w n : Nat} {mix : BitVec w → BitVec n → BitVec w} {h : BitVec w} {t : List Byte} {i : Nat}
    (hi : i + n / 8 ≤ t.length) : tailAt n mix h t i = .ok (mix h (leWord n ((t.drop i).take (n / 8)))) := by
  simp [tailAt, memRead_ok hi, bind, Except.bind, pure, Except.pure]

/-- A tail loop from offset `i` never leaves the tail, and ends at an offset inside it (R119). -/
theorem tailLoop_ok {w n k : Nat} {mix : BitVec w → BitVec n → BitVec w} {h : BitVec w} {t : List Byte} {i : Nat}
    (hk : n / 8 = k) (hpos : 0 < k) (hi : i ≤ t.length) :
    chunkLoop k (tailAt n mix) t t.length h i
      = .ok (foldChunks k (fun h chunk => mix h (leWord n chunk)) ((t.length - i) / k) h (t.drop i),
          i + k * ((t.length - i) / k)) := by
  subst hk
  exact chunkLoop_ok hpos (fun _ _ hle => tailAt_ok hle) _ _ _ hi (by omega)

/-- The offset a loop ends at is inside the bytes. -/
theorem loopEnd_le (n len i : Nat) (hi : i ≤ len) : i + n * ((len - i) / n) ≤ len := by
  have := Nat.mul_div_le (len - i) n
  omega

/-- The XXH32 tail loops answer for every tail (R119). -/
theorem tail32_ok (h : U32) (t : List Byte) :
    tail32 h t = .ok (foldChunks 1 (fun h chunk => tailByte32 h (leWord 8 chunk)) (t.length - 4 * (t.length / 4))
      (foldChunks 4 (fun h chunk => tailWord32 h (leWord 32 chunk)) (t.length / 4) h t)
      (t.drop (4 * (t.length / 4)))) := by
  have e1 := loopEnd_le 4 t.length 0 (Nat.zero_le _)
  have h1 := tailLoop_ok (mix := tailWord32) (h := h) (t := t) (k := 4) rfl (by omega) (Nat.zero_le _)
  simp only [Nat.zero_add, Nat.sub_zero, List.drop_zero] at e1 h1
  simp only [tail32, h1, bind, Except.bind]
  rw [tailLoop_ok (mix := tailByte32) (k := 1) rfl (by omega) e1]
  simp [pure, Except.pure]

/-- The XXH64 tail loops answer for every tail (R119). -/
theorem tail64_ok (h : U64) (t : List Byte) : ∃ h', tail64 h t = .ok h' := by
  have e1 := loopEnd_le 8 t.length 0 (Nat.zero_le _)
  have h1 := tailLoop_ok (mix := tailLong64) (h := h) (t := t) (k := 8) rfl (by omega) (Nat.zero_le _)
  simp only [Nat.zero_add, Nat.sub_zero, List.drop_zero] at e1 h1
  have e2 := loopEnd_le 4 t.length _ e1
  simp only [tail64, h1, bind, Except.bind]
  rw [tailLoop_ok (mix := tailWord64) (k := 4) rfl (by omega) e1]
  simp only []
  rw [tailLoop_ok (mix := tailByte64) (k := 1) rfl (by omega) e2]
  exact ⟨_, rfl⟩

/-- Mixer32 answers for all operands: it has no failure case (R122). -/
theorem mix32_ok (v : Lanes 32) (seed : U32) (n : U64) (t : List Byte) : ∃ h, mix32 v seed n t = .ok h := by
  simp only [mix32, tail32_ok, bind, Except.bind]
  exact ⟨_, rfl⟩

/-- Mixer64 answers for all operands: it has no failure case (R123). -/
theorem mix64_ok (v : Lanes 64) (seed : U64) (n : U64) (t : List Byte) : ∃ h, mix64 v seed n t = .ok h := by
  obtain ⟨h, ht⟩ := tail64_ok (start64 v seed n) t
  simp only [mix64, ht, bind, Except.bind]
  exact ⟨_, rfl⟩

end Sys2Proof.Machine
end

