-- ==== Sys2Proof/Laws/Decode.lean ====
section
/-!
SUPPORT. What the parser can answer (spec/30_encoding.md R72 to R81): the fourteen headers' operations, when a header is
malformed, and what each operand form answers.
-/

namespace Sys2Proof

theorem decodeHeader_init32 : decodeHeader 0x01 = .ok (.init, .w32) := rfl
theorem decodeHeader_reset32 : decodeHeader 0x02 = .ok (.reset, .w32) := rfl
theorem decodeHeader_write32 : decodeHeader 0x03 = .ok (.write, .w32) := rfl
theorem decodeHeader_sum32 : decodeHeader 0x04 = .ok (.sum, .w32) := rfl
theorem decodeHeader_cksum32 : decodeHeader 0x05 = .ok (.cksum, .w32) := rfl
theorem decodeHeader_bsize32 : decodeHeader 0x06 = .ok (.bsize, .w32) := rfl
theorem decodeHeader_dsize32 : decodeHeader 0x07 = .ok (.dsize, .w32) := rfl
theorem decodeHeader_init64 : decodeHeader 0x09 = .ok (.init, .w64) := rfl
theorem decodeHeader_reset64 : decodeHeader 0x0A = .ok (.reset, .w64) := rfl
theorem decodeHeader_write64 : decodeHeader 0x0B = .ok (.write, .w64) := rfl
theorem decodeHeader_sum64 : decodeHeader 0x0C = .ok (.sum, .w64) := rfl
theorem decodeHeader_cksum64 : decodeHeader 0x0D = .ok (.cksum, .w64) := rfl
theorem decodeHeader_bsize64 : decodeHeader 0x0E = .ok (.bsize, .w64) := rfl
theorem decodeHeader_dsize64 : decodeHeader 0x0F = .ok (.dsize, .w64) := rfl

/-- A well-formed header byte is the one R72 gives its operation and width. -/
def headerByte : Operation → Width → Byte
  | .init, .w32 => 0x01
  | .reset, .w32 => 0x02
  | .write, .w32 => 0x03
  | .sum, .w32 => 0x04
  | .cksum, .w32 => 0x05
  | .bsize, .w32 => 0x06
  | .dsize, .w32 => 0x07
  | .init, .w64 => 0x09
  | .reset, .w64 => 0x0A
  | .write, .w64 => 0x0B
  | .sum, .w64 => 0x0C
  | .cksum, .w64 => 0x0D
  | .bsize, .w64 => 0x0E
  | .dsize, .w64 => 0x0F

/-- One header byte for each operation and width (R72, R81). -/
theorem decodeHeader_eq_ok {h : Byte} {op : Operation} {w : Width} :
    decodeHeader h = .ok (op, w) ↔ h = headerByte op w := by
  constructor
  · have key : ∀ h : Byte, ((decodeHeader h).toOption.all fun p => h == headerByte p.1 p.2) = true := by
      decide +kernel
    intro hd
    have := key h
    rw [hd] at this
    simpa [Except.toOption] using this
  · rintro rfl
    cases op <;> cases w <;> rfl

/-- The packets of an operation and a width are not malformed (R81). -/
theorem decodeBody_ne_malformed {op : Operation} {w : Width} {body rest : List Byte} {e : CmdError} :
    decodeBody op w body ≠ .malformed e rest := by
  cases op <;> cases w <;> simp only [decodeBody, decodeSeed, decodeData, decodeSeedData] <;> (repeat' split) <;> simp

/-- The parser answers a command error exactly for a malformed header byte, of which it consumes one byte (R74, R80). -/
theorem decode_eq_malformed {bytes rest : List Byte} {e : CmdError} :
    decode bytes = .malformed e rest ↔ ∃ h, bytes = h :: rest ∧ decodeHeader h = .error e := by
  cases bytes with
  | nil => simp [decode]
  | cons h body =>
    simp only [decode]
    cases hd : decodeHeader h with
    | error e' =>
      simp only [Decoded.malformed.injEq, List.cons.injEq]
      constructor
      · rintro ⟨rfl, rfl⟩
        exact ⟨h, ⟨rfl, rfl⟩, hd⟩
      · rintro ⟨h', ⟨rfl, rfl⟩, he⟩
        rw [hd] at he
        exact ⟨by injection he, rfl⟩
    | ok p =>
      obtain ⟨op, w⟩ := p
      simp only [decodeBody_ne_malformed, false_iff, not_exists, not_and]
      rintro h' ⟨rfl, rfl⟩ he
      rw [hd] at he
      cases he

/-! ## Operand forms -/

theorem decodeSeed_eq_command {w : Nat} {make : BitVec w → Instr} {body rest : List Byte} {i : Instr} :
    decodeSeed w make body = .command i rest ↔ ∃ seed, takeField w body = some (seed, rest) ∧ i = make seed := by
  unfold decodeSeed
  cases hf : takeField w body with
  | none => simp
  | some p =>
    obtain ⟨seed, after⟩ := p
    simp only [Decoded.command.injEq, Option.some.injEq, Prod.mk.injEq]
    constructor
    · rintro ⟨rfl, rfl⟩; exact ⟨seed, ⟨rfl, rfl⟩, rfl⟩
    · rintro ⟨_, ⟨rfl, rfl⟩, rfl⟩; exact ⟨rfl, rfl⟩

theorem decodeData_eq_command {make : List Byte → Instr} {body rest : List Byte} {i : Instr} :
    decodeData make body = .command i rest ↔ ∃ data, takePayload body = some (data, rest) ∧ i = make data := by
  unfold decodeData
  cases hf : takePayload body with
  | none => simp
  | some p =>
    obtain ⟨data, after⟩ := p
    simp only [Decoded.command.injEq, Option.some.injEq, Prod.mk.injEq]
    constructor
    · rintro ⟨rfl, rfl⟩; exact ⟨data, ⟨rfl, rfl⟩, rfl⟩
    · rintro ⟨_, ⟨rfl, rfl⟩, rfl⟩; exact ⟨rfl, rfl⟩

theorem decodeSeedData_eq_command {w : Nat} {make : BitVec w → List Byte → Instr} {body rest : List Byte} {i : Instr} :
    decodeSeedData w make body = .command i rest ↔
      ∃ seed after data, takeField w body = some (seed, after) ∧ takePayload after = some (data, rest) ∧
        i = make seed data := by
  unfold decodeSeedData
  cases hf : takeField w body with
  | none => simp
  | some p =>
    obtain ⟨seed, after⟩ := p
    simp only [decodeData_eq_command, Option.some.injEq, Prod.mk.injEq]
    constructor
    · rintro ⟨data, hp, rfl⟩; exact ⟨seed, after, data, ⟨rfl, rfl⟩, hp, rfl⟩
    · rintro ⟨_, _, data, ⟨rfl, rfl⟩, hp, rfl⟩; exact ⟨data, hp, rfl⟩

/-- A command's packet takes at least its header byte (R70). -/
theorem decode_command_length {bytes rest : List Byte} {i : Instr} (h : decode bytes = .command i rest) :
    rest.length < bytes.length := by
  cases bytes with
  | nil => cases h
  | cons b body =>
    suffices rest.length ≤ body.length by simpa using Nat.lt_succ_of_le this
    simp only [decode] at h
    split at h
    · cases h
    · rename_i op w _
      cases op <;> cases w <;>
        simp only [decodeBody, decodeSeed_eq_command, decodeData_eq_command, decodeSeedData_eq_command,
          Decoded.command.injEq] at h
      all_goals first
        | exact Nat.le_of_eq (congrArg List.length h.2.symm)
        | exact takeField_length_le h.choose_spec.1
        | exact takePayload_length_le h.choose_spec.1
        | (obtain ⟨_, _, _, hf, hp, -⟩ := h
           exact Nat.le_trans (takePayload_length_le hp) (takeField_length_le hf))

end Sys2Proof
end

