-- ==== Sys2Proof/Laws/PerInstr.lean ====
section
/-!
SUPPORT. The family `Header` of statements about every command as syntax: its packet begins with a header byte that
decodes to the command's operation and width (spec/30_encoding.md R71 to R73).
-/

namespace Sys2Proof.Laws.Header

/-- The packet of the command begins with the header byte of its operation and width. -/
def Statement (i : Instr) : Prop := ∃ h body, encode i = h :: body ∧ decodeHeader h = .ok (i.operation, i.width)

theorem init32 (seed : U32) : Statement (.init32 seed) := ⟨0x01, _, rfl, rfl⟩
theorem reset32 : Statement .reset32 := ⟨0x02, _, rfl, rfl⟩
theorem write32 (data : List Byte) : Statement (.write32 data) := ⟨0x03, _, rfl, rfl⟩
theorem sum32 : Statement .sum32 := ⟨0x04, _, rfl, rfl⟩
theorem cksum32 (seed : U32) (data : List Byte) : Statement (.cksum32 seed data) := ⟨0x05, _, rfl, rfl⟩
theorem bsize32 : Statement .bsize32 := ⟨0x06, _, rfl, rfl⟩
theorem dsize32 : Statement .dsize32 := ⟨0x07, _, rfl, rfl⟩
theorem init64 (seed : U64) : Statement (.init64 seed) := ⟨0x09, _, rfl, rfl⟩
theorem reset64 : Statement .reset64 := ⟨0x0A, _, rfl, rfl⟩
theorem write64 (data : List Byte) : Statement (.write64 data) := ⟨0x0B, _, rfl, rfl⟩
theorem sum64 : Statement .sum64 := ⟨0x0C, _, rfl, rfl⟩
theorem cksum64 (seed : U64) (data : List Byte) : Statement (.cksum64 seed data) := ⟨0x0D, _, rfl, rfl⟩
theorem bsize64 : Statement .bsize64 := ⟨0x0E, _, rfl, rfl⟩
theorem dsize64 : Statement .dsize64 := ⟨0x0F, _, rfl, rfl⟩

end Sys2Proof.Laws.Header
end

