-- ==== Sys2Proof/Laws/Stream.lean ====
section
/-!
SUPPORT. What `WRITE`, `SUM` and `CKSUM` compute, once and for both widths: from a buffer in range, `WRITE` mixes exactly
the complete blocks of the buffered bytes followed by the payload and keeps the rest (spec/42_stream_commands.md R160,
R161), and none of the three raises an invariant fault (spec/60_exceptions.md R214).
-/

namespace Sys2Proof.Machine

theorem blockSize_pos (W : Width) : 0 < blockSize W := by cases W <;> decide

/-- The bytes after the complete blocks fit the buffer (R27 (a)). -/
theorem rest_lt (W : Width) (d : List Byte) :
    (d.drop (blockSize W * (d.length / blockSize W))).length < blockSize W := by
  have h := Nat.mod_lt d.length (blockSize_pos W)
  have := Nat.div_add_mod d.length (blockSize W)
  rw [List.length_drop]
  omega

/-- Everything `WRITE` can do to a context whose buffer is in range. -/
theorem writeCtx_ok {w : Nat} {W : Width} {block : Lanes w → List Byte → Nat → Except InvariantFault (Lanes w)}
    {absorb : Lanes w → List Byte → Except InvariantFault (Lanes w × Nat)} {mix : Lanes w → List Byte → Lanes w}
    (hblock : ∀ v b, blockSize W ≤ b.length → block v b 0 = .ok (mix v (b.take (blockSize W))))
    (habsorb : ∀ v b, absorb v b = .ok (foldChunks (blockSize W) mix (b.length / blockSize W) v b,
      blockSize W * (b.length / blockSize W)))
    (ctx : Ctx w) (d : List Byte) (hbuf : ctx.buf.length < blockSize W) :
    writeCtx W block absorb ctx d = .ok
      { seed := ctx.seed
        v := foldChunks (blockSize W) mix ((ctx.buf ++ d).length / blockSize W) ctx.v (ctx.buf ++ d)
        totalLength := ctx.totalLength + lenOf d
        buf := (ctx.buf ++ d).drop (blockSize W * ((ctx.buf ++ d).length / blockSize W))
        phase := .accumulating } := by
  have hrest := rest_lt W (ctx.buf ++ d)
  have hpos := blockSize_pos W
  simp only [writeCtx, checkBuf, hbuf, if_true, bind, Except.bind]
  split
  · rename_i hlt
    have h0 : (ctx.buf ++ d).length / blockSize W = 0 := Nat.div_eq_of_lt (by simpa using hlt)
    rw [h0]
    simp [memWrite, List.length_append, hlt, foldChunks]
  · rename_i hge
    by_cases h0 : ctx.buf.length = 0
    · have hb : ctx.buf = [] := List.length_eq_zero_iff.mp h0
      rw [hb, List.nil_append] at hrest
      simp [fillBlock, hb, pure, Except.pure, habsorb, memWrite, hrest, -List.length_drop]
    · have hn : blockSize W ≤ (ctx.buf ++ d).length := by rw [List.length_append]; omega
      have htake : ctx.buf ++ d.take (blockSize W - ctx.buf.length) = (ctx.buf ++ d).take (blockSize W) := by
        rw [List.take_append, List.take_of_length_le (l := ctx.buf) (by omega)]
      have hdrop : d.drop (blockSize W - ctx.buf.length) = (ctx.buf ++ d).drop (blockSize W) := by
        rw [List.drop_append, List.drop_of_length_le (l := ctx.buf) (by omega), List.nil_append]
      have hdiv : (ctx.buf ++ d).length / blockSize W
          = ((ctx.buf ++ d).drop (blockSize W)).length / blockSize W + 1 := by
        rw [List.length_drop, Nat.div_eq_sub_div hpos hn]
      have hend : d.drop (blockSize W - ctx.buf.length
            + blockSize W * (((ctx.buf ++ d).drop (blockSize W)).length / blockSize W))
          = (ctx.buf ++ d).drop (blockSize W * ((ctx.buf ++ d).length / blockSize W)) := by
        rw [← List.drop_drop, hdrop, List.drop_drop, hdiv, Nat.mul_succ, Nat.add_comm (blockSize W)]
      have hfill : block ctx.v (ctx.buf ++ d.take (blockSize W - ctx.buf.length)) 0
          = .ok (mix ctx.v ((ctx.buf ++ d).take (blockSize W))) := by
        rw [htake, hblock _ _ (by rw [List.length_take]; omega), List.take_take, Nat.min_self]
      simp only [fillBlock, h0, if_false, bind, Except.bind, hfill, pure, Except.pure, habsorb, hdrop, hend, memWrite,
        hrest, if_true]
      rw [hdiv, foldChunks]

/-- `WRITE32` on a context whose buffer is in range. -/
theorem writeCtx32_ok (ctx : Ctx 32) (d : List Byte) (hbuf : ctx.buf.length < 16) :
    writeCtx .w32 block32 absorb32 ctx d = .ok
      { seed := ctx.seed
        v := foldChunks 16 (mixChunk round32) ((ctx.buf ++ d).length / 16) ctx.v (ctx.buf ++ d)
        totalLength := ctx.totalLength + lenOf d
        buf := (ctx.buf ++ d).drop (16 * ((ctx.buf ++ d).length / 16))
        phase := .accumulating } :=
  writeCtx_ok (W := .w32) (fun v b h => by simpa using block32_ok (v := v) (o := 0) (b := b) (by simpa using h))
    absorb32_ok ctx d hbuf

/-- `WRITE64` on a context whose buffer is in range. -/
theorem writeCtx64_ok (ctx : Ctx 64) (d : List Byte) (hbuf : ctx.buf.length < 32) :
    writeCtx .w64 block64 absorb64 ctx d = .ok
      { seed := ctx.seed
        v := foldChunks 32 (mixChunk round64) ((ctx.buf ++ d).length / 32) ctx.v (ctx.buf ++ d)
        totalLength := ctx.totalLength + lenOf d
        buf := (ctx.buf ++ d).drop (32 * ((ctx.buf ++ d).length / 32))
        phase := .accumulating } :=
  writeCtx_ok (W := .w64) (fun v b h => by simpa using block64_ok (v := v) (o := 0) (b := b) (by simpa using h))
    absorb64_ok ctx d hbuf

/-- `WRITE` on a context whose buffer is out of range raises that context's invariant fault. -/
theorem writeCtx_broken {w : Nat} {W : Width} {block : Lanes w → List Byte → Nat → Except InvariantFault (Lanes w)}
    {absorb : Lanes w → List Byte → Except InvariantFault (Lanes w × Nat)} {ctx : Ctx w} {d : List Byte}
    (h : blockSize W ≤ ctx.buf.length) : writeCtx W block absorb ctx d = .error (.contextBufferFull W) := by
  simp [writeCtx, checkBuf, Nat.not_lt.mpr h, bind, Except.bind]

/-- `SUM` on a context: the mixer on the context's own fields, or its invariant fault. -/
theorem sumCtx_eq {w : Nat} {W : Width}
    {mix : Lanes w → BitVec w → U64 → List Byte → Except InvariantFault (BitVec w)} {ctx : Ctx w} :
    sumCtx W mix ctx =
      if ctx.buf.length < blockSize W then mix ctx.v ctx.seed ctx.totalLength ctx.buf
      else .error (.contextBufferFull W) := by
  unfold sumCtx checkBuf
  split <;> simp [bind, Except.bind]

/-- The one-shot XXH32 checksum answers for every seed and byte sequence: it is a total function (R190). -/
theorem checksum32_ok (seed : U32) (d : List Byte) : ∃ h, checksum32 seed d = .ok h := by
  obtain ⟨h, hm⟩ := mix32_ok (foldChunks 16 (mixChunk round32) (d.length / 16) (init32 seed) d) seed (lenOf d)
    (d.drop (16 * (d.length / 16)))
  exact ⟨h, by simp [checksum32, absorb32_ok, bind, Except.bind, hm]⟩

/-- The one-shot XXH64 checksum answers for every seed and byte sequence: it is a total function (R191). -/
theorem checksum64_ok (seed : U64) (d : List Byte) : ∃ h, checksum64 seed d = .ok h := by
  obtain ⟨h, hm⟩ := mix64_ok (foldChunks 32 (mixChunk round64) (d.length / 32) (init64 seed) d) seed (lenOf d)
    (d.drop (32 * (d.length / 32)))
  exact ⟨h, by simp [checksum64, absorb64_ok, bind, Except.bind, hm]⟩

end Sys2Proof.Machine
end

