-- ==== Sys2Proof/Laws/Step.lean ====
section
/-!
SUPPORT. Everything a command, a fetch and a step can do, once: the case lemmas that statements about all commands and
all steps are derived from.
-/

namespace Sys2Proof.Machine

/-- No context is found broken exactly when R27 (a) holds of both. -/
theorem brokenContext_eq_none {s : State} : brokenContext s = none ↔ s.BuffersInRange := by
  have h32 : blockSize .w32 ≤ s.ctx32.buf.length ↔ ¬ s.ctx32.buf.length < blockSize .w32 := Nat.not_lt.symm
  have h64 : blockSize .w64 ≤ s.ctx64.buf.length ↔ ¬ s.ctx64.buf.length < blockSize .w64 := Nat.not_lt.symm
  unfold brokenContext State.BuffersInRange
  by_cases h1 : s.ctx32.buf.length < blockSize .w32
  · by_cases h2 : s.ctx64.buf.length < blockSize .w64
    · simp only [h32, h64, h1, h2, not_true_eq_false, if_false, and_self]
    · simp only [h32, h64, h1, h2, not_true_eq_false, not_false_eq_true, if_false, if_true, and_false, reduceCtorEq]
  · simp only [h32, h1, not_false_eq_true, if_true, false_and, reduceCtorEq]

/-- The queue has room exactly when it holds fewer than `RSP_DEPTH` responses (R246). -/
theorem queueFull_eq_false {s : State} : queueFull s = false ↔ s.rspOut.length < Config.rspDepth := by
  simp [queueFull]

/-- Everything the end of a context-storing command can do. -/
theorem finish_cases {s t : State} {result : Except InvariantFault State} {value : List Byte}
    (h : finish s result value = .next t) :
    (∃ u, result = .ok u ∧ t = respond u .ok value) ∨ (∃ what, result = .error what ∧ t = recordFault s what) := by
  cases result with
  | ok u => exact .inl ⟨u, rfl, by simpa [finish] using h.symm⟩
  | error what => exact .inr ⟨what, rfl, by simpa [finish] using h.symm⟩

/-- Everything the end of a digest command can do. -/
theorem answerDigest_cases {w : Nat} {s t : State} {n : Nat} {digest : Except InvariantFault (BitVec w)}
    (h : answerDigest s n digest = .next t) :
    (∃ d, digest = .ok d ∧ t = respond s .ok (beBytes n d)) ∨ (∃ what, digest = .error what ∧ t = recordFault s what) := by
  cases digest with
  | ok d => exact .inl ⟨d, rfl, by simpa [answerDigest] using h.symm⟩
  | error what => exact .inr ⟨what, rfl, by simpa [answerDigest] using h.symm⟩

/-- Everything a command can do: it stores contexts and answers OK, or it records an invariant fault and does nothing
else. It never stops. -/
theorem exec_cases (i : Instr) (s : State) :
    (∃ c32 c64 value, exec i s = .next (respond { s with ctx32 := c32, ctx64 := c64 } .ok value)) ∨
      (∃ what, exec i s = .next (recordFault s what)) := by
  have hfin32 : ∀ (r : Except InvariantFault (Ctx 32)) (value : List Byte),
      (∃ c32 c64 v, finish s (r.map fun c => { s with ctx32 := c }) value
          = .next (respond { s with ctx32 := c32, ctx64 := c64 } .ok v)) ∨
        (∃ what, finish s (r.map fun c => { s with ctx32 := c }) value = .next (recordFault s what)) := by
    intro r value
    cases r with
    | ok c => exact .inl ⟨c, s.ctx64, value, rfl⟩
    | error what => exact .inr ⟨what, rfl⟩
  have hfin64 : ∀ (r : Except InvariantFault (Ctx 64)) (value : List Byte),
      (∃ c32 c64 v, finish s (r.map fun c => { s with ctx64 := c }) value
          = .next (respond { s with ctx32 := c32, ctx64 := c64 } .ok v)) ∨
        (∃ what, finish s (r.map fun c => { s with ctx64 := c }) value = .next (recordFault s what)) := by
    intro r value
    cases r with
    | ok c => exact .inl ⟨s.ctx32, c, value, rfl⟩
    | error what => exact .inr ⟨what, rfl⟩
  have hdig : ∀ {w : Nat} (n : Nat) (r : Except InvariantFault (BitVec w)),
      (∃ c32 c64 v, answerDigest s n r = .next (respond { s with ctx32 := c32, ctx64 := c64 } .ok v)) ∨
        (∃ what, answerDigest s n r = .next (recordFault s what)) := by
    intro w n r
    cases r with
    | ok d => exact .inl ⟨s.ctx32, s.ctx64, beBytes n d, rfl⟩
    | error what => exact .inr ⟨what, rfl⟩
  cases i with
  | init32 seed => exact .inl ⟨_, s.ctx64, [], rfl⟩
  | reset32 => exact .inl ⟨_, s.ctx64, [], rfl⟩
  | write32 data => exact hfin32 _ _
  | sum32 => exact hdig _ _
  | cksum32 seed data => exact hdig _ _
  | bsize32 => exact .inl ⟨s.ctx32, s.ctx64, _, rfl⟩
  | dsize32 => exact .inl ⟨s.ctx32, s.ctx64, _, rfl⟩
  | init64 seed => exact .inl ⟨s.ctx32, _, [], rfl⟩
  | reset64 => exact .inl ⟨s.ctx32, _, [], rfl⟩
  | write64 data => exact hfin64 _ _
  | sum64 => exact hdig _ _
  | cksum64 seed data => exact hdig _ _
  | bsize64 => exact .inl ⟨s.ctx32, s.ctx64, _, rfl⟩
  | dsize64 => exact .inl ⟨s.ctx32, s.ctx64, _, rfl⟩

/-- When the engine fetches a command: nothing holds it, and the bytes at the front of the command port decode to it. -/
theorem fetch_eq_command {s t : State} {i : Instr} :
    fetch s = .command i t ↔
      s.Ready ∧ ∃ rest, decode s.cmdIn = .command i rest ∧ t = { s with cmdIn := rest } := by
  unfold fetch
  cases hf : s.fault with
  | some what => simp [State.Ready, hf]
  | none =>
    cases hb : brokenContext s with
    | some what =>
      have : ¬ s.BuffersInRange := fun h => by rw [brokenContext_eq_none.mpr h] at hb; cases hb
      simp only [State.Ready, this, false_and, and_false, reduceCtorEq]
    | none =>
      have hr := brokenContext_eq_none.mp hb
      cases hq : queueFull s with
      | true => simp [State.Ready, hq]
      | false =>
        cases hd : decode s.cmdIn with
        | incomplete => simp
        | malformed e rest => simp
        | command j rest =>
          have hready : s.Ready := ⟨hf, hr, hq⟩
          simp only [Bool.false_eq_true, if_false, Fetched.command.injEq, Decoded.command.injEq]
          constructor
          · rintro ⟨rfl, rfl⟩; exact ⟨hready, rest, ⟨rfl, rfl⟩, rfl⟩
          · rintro ⟨-, _, ⟨rfl, rfl⟩, rfl⟩; exact ⟨rfl, rfl⟩

/-- Everything a step that answers a next state can be: the engine finds a broken context and records it, or answers a
malformed header, or runs the command it fetches. -/
theorem step_cases {s t : State} (h : step s = .next t) :
    (∃ what, s.fault = none ∧ brokenContext s = some what ∧ t = recordFault s what) ∨
      (∃ b rest e, s.Ready ∧ s.cmdIn = b :: rest ∧ decodeHeader b = .error e ∧ t = raiseCmdError s e) ∨
      (∃ i rest, s.Ready ∧ decode s.cmdIn = .command i rest ∧ exec i { s with cmdIn := rest } = .next t) := by
  unfold step at h
  cases hx : fetch s with
  | stopped why => rw [hx] at h; cases h
  | broken what =>
    rw [hx] at h
    refine .inl ⟨what, ?_, ?_, by simpa using h.symm⟩ <;>
      (unfold fetch at hx; split at hx <;> [cases hx; skip]; split at hx <;> simp_all)
    all_goals (split at hx <;> [cases hx; skip]; split at hx <;> cases hx)
  | malformed e =>
    rw [hx] at h
    refine .inr (.inl ?_)
    unfold fetch at hx
    split at hx
    · cases hx
    · rename_i hf
      split at hx
      · cases hx
      · rename_i hb
        split at hx
        · cases hx
        · rename_i hq
          split at hx
          · cases hx
          · rename_i e' rest hd
            obtain ⟨b, hc, he⟩ := decode_eq_malformed.mp hd
            cases hx
            exact ⟨b, rest, e, ⟨hf, brokenContext_eq_none.mp hb, by simpa using hq⟩, hc, he, by simpa using h.symm⟩
          · cases hx
  | command i u =>
    rw [hx] at h
    obtain ⟨hr, rest, hd, rfl⟩ := fetch_eq_command.mp hx
    exact .inr (.inr ⟨i, rest, hr, hd, h⟩)

/-- When the engine runs a command. -/
theorem step_command {s : State} {i : Instr} {rest : List Byte} (hr : s.Ready) (hd : decode s.cmdIn = .command i rest) :
    fetch s = .command i { s with cmdIn := rest } :=
  fetch_eq_command.mpr ⟨hr, rest, hd, rfl⟩

end Sys2Proof.Machine
end

