-- ==== Sys2Proof/Laws/Run.lean ====
section
/-!
SUPPORT. What a run on a command stream is made of: one lemma per kind of packet for `packetsOf`, the responses that answer
packets as a relation, and what an event makes of a system.
-/

namespace Sys2Proof.Machine

/-! ## The packets of a stream -/

/-- Any fuel of at least the stream's length gives the same packets. -/
theorem packetsWithin_fuel {n m : Nat} {bytes : List Byte} (hn : bytes.length ≤ n) (hm : bytes.length ≤ m) :
    packetsWithin n bytes = packetsWithin m bytes := by
  induction n generalizing m bytes with
  | zero =>
    obtain rfl : bytes = [] := List.length_eq_zero_iff.mp (Nat.le_zero.mp hn)
    cases m <;> rfl
  | succ n ih =>
    cases m with
    | zero =>
      obtain rfl : bytes = [] := List.length_eq_zero_iff.mp (Nat.le_zero.mp hm)
      rfl
    | succ m =>
      simp only [packetsWithin]
      cases hd : decode bytes with
      | incomplete => rfl
      | malformed e rest =>
        obtain ⟨b, rfl, -⟩ := decode_eq_malformed.mp hd
        simp only [List.length_cons] at hn hm
        exact congrArg _ (ih (by omega) (by omega))
      | command i rest =>
        have := decode_command_length hd
        exact congrArg _ (ih (by omega) (by omega))

/-- A stream that begins with no whole packet has none. -/
theorem packetsOf_incomplete {bytes : List Byte} (h : decode bytes = .incomplete) : packetsOf bytes = [] := by
  unfold packetsOf
  cases hl : bytes.length <;> simp only [packetsWithin, h]

/-- A malformed header byte at the front is the first packet. -/
theorem packetsOf_malformed {bytes rest : List Byte} {e : CmdError} (h : decode bytes = .malformed e rest) :
    packetsOf bytes = .error e :: packetsOf rest := by
  obtain ⟨b, rfl, -⟩ := decode_eq_malformed.mp h
  simp only [packetsOf, List.length_cons, packetsWithin, h]

/-- A command's packet at the front is the first packet. -/
theorem packetsOf_command {bytes rest : List Byte} {i : Instr} (h : decode bytes = .command i rest) :
    packetsOf bytes = .ok i :: packetsOf rest := by
  have hlt := decode_command_length h
  obtain ⟨n, hn⟩ : ∃ n, bytes.length = n + 1 := ⟨bytes.length - 1, by omega⟩
  simp only [packetsOf, hn, packetsWithin, h]
  exact congrArg _ (packetsWithin_fuel (by omega) (Nat.le_refl _))

/-! ## Histories -/

section HistoryPacket
variable (W : Width) (S : List Byte)

@[simp] theorem historyPacket_ok (i : Instr) : historyPacket W S (.ok i) = historyStep W S i := rfl
@[simp] theorem historyPacket_error (e : CmdError) : historyPacket W S (.error e) = S := rfl

end HistoryPacket

/-- A command that does not write the context of width `W` leaves its history (R24, R25). -/
theorem historyStep_of_not_writes {W : Width} {i : Instr} (S : List Byte) (h : ¬ Writes W i) : historyStep W S i = S := by
  by_cases hw : i.width = W
  · cases i <;> simp_all [Writes, Instr.writesContext, Instr.operation, historyStep]
  · simp only [historyStep, hw, if_false]

/-! ## Responses -/

/-- `answersAll` pairs packets and responses one to one, in order (R84, R87). -/
theorem answersAll_iff {packets : List (Except CmdError Instr)} {responses : List (List Byte)} :
    answersAll packets responses = true ↔
      List.Forall₂ (fun packet response => answers packet response = true) packets responses := by
  induction packets generalizing responses with
  | nil => cases responses <;> simp [answersAll]
  | cons p ps ih => cases responses <;> simp [answersAll, ih]

/-- The three conditions of `streamDone`, as a conjunction (R249). -/
theorem streamDone_iff {stream : List Byte} {y : System} :
    streamDone stream y = true ↔ y.consumed = stream ∧ y.core.cmdIn = [] ∧
      List.Forall₂ (fun packet response => answers packet response = true) (packetsOf stream) y.responses := by
  simp only [streamDone, Bool.and_eq_true, beq_iff_eq, answersAll_iff, and_assoc]

/-! ## Events -/

section EngineStepped
variable (y : System) (s : State)

@[simp] theorem engineStepped_core : (engineStepped y s).core = s := rfl
@[simp] theorem engineStepped_taken : (engineStepped y s).taken = y.taken := rfl
@[simp] theorem engineStepped_consumed :
    (engineStepped y s).consumed = y.consumed ++ y.core.cmdIn.take (y.core.cmdIn.length - s.cmdIn.length) := rfl

end EngineStepped

/-- A host's event does to the core what the host's action does (R247). -/
theorem systemStep_host_core (y : System) (a : HostAction) : (systemStep y (.host a)).core = hostAct y.core a := by
  cases a with
  | send bytes => rfl
  | take =>
    cases hx : hostTake y.core <;> simp only [systemStep, hostAct, hx]
  | powerOnReset => rfl

/-- Taking a response moves it: what the core has emitted stays the same (R247). -/
theorem systemStep_take_responses (y : System) : (systemStep y (.host .take)).responses = y.responses := by
  unfold systemStep hostTake
  cases hr : y.core.rspOut with
  | nil => rfl
  | cons packet later => simp only [System.responses, hr, List.append_assoc, List.singleton_append]

end Sys2Proof.Machine
end

