-- ==== Sys2Proof/Tests/Slice0.lean ====
section
/-!
SUPPORT. The model's own tests. Every expected value is the spec's: the examples of its rules, the vectors of
spec/95_test_vectors.md, or a packet written out from spec/30_encoding.md. After them, for every obligation that has
hypotheses, states and operands that meet them.
-/

open Sys2Proof Sys2Proof.Machine

namespace Sys2Proof.Tests

/-! ## Helpers -/

/-- The bytes of an ASCII text. -/
def ascii (text : String) : List Byte := text.toList.map fun c => BitVec.ofNat 8 c.toNat

/-- `pat(n)`: the bytes 00 01 02 … (spec/95_test_vectors.md). -/
def pat (n : Nat) : List Byte := (List.range n).map fun k => BitVec.ofNat 8 k

/-- What a test reads off an outcome: something of its next state, or nothing. -/
def read {α : Type} (f : State → α) : Host.Outcome State Fault Refusal → Option α
  | .next s => some (f s)
  | .fault _ => none
  | .refused _ => none

/-- The power-on state with these bytes on the command port. -/
def sent (bytes : List Byte) : State := hostSend State.reset bytes

/-- The power-on state with `b` for CTX32's buffer and its length for the counter. -/
def buffered32 (b : List Byte) : State :=
  { State.reset with ctx32 := { State.reset.ctx32 with buf := b, totalLength := lenOf b } }

/-- The power-on state with `b` for CTX64's buffer and its length for the counter. -/
def buffered64 (b : List Byte) : State :=
  { State.reset with ctx64 := { State.reset.ctx64 with buf := b, totalLength := lenOf b } }

/-! ## Well-formedness: a payload longer than `LEN` can say is refused (R77) -/

/-- One byte more than `LEN` can count. -/
def tooLong : List Byte := List.replicate (2 ^ 64) 0

theorem test_wellFormed_refuses_tooLong : payloadFits tooLong = false := by
  rw [payloadFits, tooLong, List.length_replicate, decide_eq_false_iff_not]
  exact Nat.lt_irrefl _

theorem test_wellFormed_refuses_each_form (seed32 : U32) (seed64 : U64) :
    (Instr.write32 tooLong).wellFormed = false ∧ (Instr.write64 tooLong).wellFormed = false ∧
      (Instr.cksum32 seed32 tooLong).wellFormed = false ∧ (Instr.cksum64 seed64 tooLong).wellFormed = false :=
  ⟨test_wellFormed_refuses_tooLong, test_wellFormed_refuses_tooLong, test_wellFormed_refuses_tooLong,
    test_wellFormed_refuses_tooLong⟩

theorem test_wellFormed_accepts_longest : payloadFits (List.replicate (2 ^ 64 - 1) 0) = true := by
  rw [payloadFits, List.length_replicate, decide_eq_true_eq]
  exact Nat.sub_lt (Nat.two_pow_pos 64) Nat.one_pos

/-! ## Decoding: each command's packet, written out from R72, R75 and R92 or taken from spec/95_test_vectors.md -/

theorem test_decode_init32 : decode [0x01, 0x78, 0x56, 0x34, 0x12] = .command (.init32 0x12345678) [] := by decide
theorem test_decode_reset32 : decode [0x02, 0x02] = .command .reset32 [0x02] := by decide
theorem test_decode_write32 : decode [0x03, 0x03, 0, 0, 0, 0, 0, 0, 0, 0x61, 0x73, 0x64, 0x0B]
    = .command (.write32 [0x61, 0x73, 0x64]) [0x0B] := by decide
theorem test_decode_sum32 : decode [0x04] = .command .sum32 [] := by decide
theorem test_decode_cksum32 : decode [0x05, 0xB1, 0x79, 0x37, 0x9E, 0x01, 0, 0, 0, 0, 0, 0, 0, 0xFF]
    = .command (.cksum32 0x9E3779B1 [0xFF]) [] := by decide
theorem test_decode_bsize32 : decode [0x06] = .command .bsize32 [] := by decide
theorem test_decode_dsize32 : decode [0x07] = .command .dsize32 [] := by decide
theorem test_decode_init64 : decode [0x09, 0xEF, 0xCD, 0xAB, 0x89, 0x67, 0x45, 0x23, 0x01]
    = .command (.init64 0x0123456789ABCDEF) [] := by decide
theorem test_decode_reset64 : decode [0x0A, 0x00] = .command .reset64 [0x00] := by decide
theorem test_decode_write64 : decode [0x0B, 0x03, 0, 0, 0, 0, 0, 0, 0, 0x61, 0x62, 0x63]
    = .command (.write64 [0x61, 0x62, 0x63]) [] := by decide
theorem test_decode_sum64 : decode [0x0C, 0x08, 0x0C] = .command .sum64 [0x08, 0x0C] := by decide
theorem test_decode_cksum64 : decode
    [0x0D, 0x01, 0x02, 0x03, 0x04, 0x05, 0x06, 0x07, 0x08, 0x01, 0, 0, 0, 0, 0, 0, 0, 0x78]
    = .command (.cksum64 0x0807060504030201 [0x78]) [] := by decide
theorem test_decode_bsize64 : decode [0x0E] = .command .bsize64 [] := by decide
theorem test_decode_dsize64 : decode [0x0F] = .command .dsize64 [] := by decide

/-- R81: the header bytes just inside and just outside each row of its table. -/
theorem test_decode_malformed_headers :
    [0x00, 0x08, 0x10, 0x18, 0x80, 0xFF].map (fun h : Byte => decode [h, 0x06]) =
      [.malformed .errOpcode [0x06], .malformed .errOpcode [0x06], .malformed .errReserved [0x06],
        .malformed .errReserved [0x06], .malformed .errReserved [0x06], .malformed .errReserved [0x06]] := by decide

/-- Section 2.5's holds: none of these is a whole packet. -/
theorem test_decode_holds_partial_packets :
    [[], [0x03, 0x05, 0, 0, 0, 0, 0, 0, 0, 0x61, 0x62], [0x01, 0x78, 0x56], [0x0B, 0x10],
      [0x03, 0xFF, 0xFF, 0xFF, 0xFF, 0xFF, 0xFF, 0xFF, 0xFF, 0x00]].map decode
      = List.replicate 5 .incomplete := by decide

/-- The opcode table's numbering: a second byte's bits lie above the first's; payload bytes the number does not give
are zero. -/
theorem test_decodeTableWord :
    decodeTableWord 8 0x0D = some (.cksum64 0 []) ∧ decodeTableWord 16 0x0209 = some (.init64 2) ∧
      decodeTableWord 16 0x0303 = some (.write32 [0, 0, 0]) ∧ decodeTableWord 8 0x08 = none := by decide

/-! ## The datapath: spec/95_test_vectors.md section 2.1 -/

theorem test_rotations_and_rounds :
    rotl (0x12345678 : U32) 13 = 0x8ACF0246 ∧ rotl (0x8000000000000001 : U64) 1 = 3 ∧
      round32 0xFFFFFFFF 0xFFFFFFFF = 0xD3CFBEA2 ∧ round64 0xFFFFFFFFFFFFFFFF 0xFFFFFFFFFFFFFFFF = 0xE2BA51F296AF98A7 ∧
      mergeRound64 0xFFFFFFFFFFFFFFFF 0xFFFFFFFFFFFFFFFF = 0x2755FD62D36C9DCB := by decide

theorem test_convergence_and_avalanche :
    converge32 (init32 0) = 0x57694B34 ∧ converge64 (init64 0) = 0x5AE1634AE2A70C06 ∧
      avalanche32 0xFFFFFFFF = 0x0173FB23 ∧ avalanche64 0xFFFFFFFFFFFFFFFF = 0x100AB62DAADD9289 := by decide

theorem test_tail32 : tail32 0 (ascii "abcdefghijklmno") = .ok 0x43B0206F := by decide
theorem test_tail64 : tail64 0 (pat 31) = .ok 0x6DDEA812CA3D04AA := by decide +kernel

theorem test_byte_reader :
    memRead 32 [0, 1, 2, 3, 4, 5] 2 = .ok 0x05040302 ∧ memRead 64 [1, 2, 3, 4, 5, 6, 7, 8] 0 = .ok 0x0807060504030201 ∧
      memRead 32 [0, 1, 2, 3, 4, 5] 3 = .error .readerOutOfRange := by decide

/-! ## The commands: the rules' examples and spec/95_test_vectors.md -/

/-- R140's example. -/
theorem test_init32 : read (fun s => (s.ctx32.v, s.rspOut)) (exec (.init32 0x12345678) State.reset) =
    some ({ v1 := 0x36579AA0, v2 := 0x982020EF, v3 := 0x12345678, v4 := 0x73FCDCC7 }, [[0x00]]) := by decide

/-- Section 2.1: the seed `P32_1`, with which the fourth lane wraps to 0. -/
theorem test_init32_wraps : read (fun s => s.ctx32.v) (exec (.init32 0x9E3779B1) State.reset) =
    some { v1 := 0xC25ABDD9, v2 := 0x24234428, v3 := 0x9E3779B1, v4 := 0 } := by decide

/-- R141's example. -/
theorem test_init64 : read (fun s => (s.ctx64.v, s.rspOut)) (exec (.init64 0x0123456789ABCDEF) State.reset) =
    some ({ v1 := 0x620D6D56376C83C5, v2 := 0xC3D5F3A4B180B93E, v3 := 0x0123456789ABCDEF, v4 := 0x62EBCBB603C00368 },
      [[0x00]]) := by decide

/-- Section 2.2: the greatest seed. -/
theorem test_init64_wraps : read (fun s => s.ctx64.v) (exec (.init64 0xFFFFFFFFFFFFFFFF) State.reset) =
    some { v1 := 0x60EA27EEADC0B5D5, v2 := 0xC2B2AE3D27D4EB4E, v3 := 0xFFFFFFFFFFFFFFFF, v4 := 0x61C8864E7A143578 } := by
  decide

/-- R142: the stored seed stays; lanes, counter and buffer are as after `INIT32` of it. -/
theorem test_reset32 :
    read (fun s => s.ctx32)
      (exec .reset32 { State.reset with ctx32 :=
        { seed := 0x12345678, v := init32 5, totalLength := 17, buf := [0x71], phase := .accumulating } }) =
    some
      { seed := 0x12345678
        v := { v1 := 0x36579AA0, v2 := 0x982020EF, v3 := 0x12345678, v4 := 0x73FCDCC7 }
        totalLength := 0, buf := [], phase := .initialized } := by decide

/-- R143: the same for CTX64. -/
theorem test_reset64 :
    read (fun s => s.ctx64)
      (exec .reset64 { State.reset with ctx64 :=
        { seed := 0x0123456789ABCDEF, v := init64 5, totalLength := 40, buf := [0x5A], phase := .accumulating } }) =
    some
      { seed := 0x0123456789ABCDEF
        v := { v1 := 0x620D6D56376C83C5, v2 := 0xC3D5F3A4B180B93E, v3 := 0x0123456789ABCDEF, v4 := 0x62EBCBB603C00368 }
        totalLength := 0, buf := [], phase := .initialized } := by decide

/-- R160's example: 17 bytes from power-on. -/
theorem test_write32 :
    read (fun s => (s.ctx32, s.rspOut)) (exec (.write32 (ascii "abcdefghijklmnopq")) State.reset) =
    some
      ({ seed := 0
         v := { v1 := 0xE7D631C0, v2 := 0x64734CDF, v3 := 0xD5391599, v4 := 0x410C50B8 }
         totalLength := 17, buf := [0x71], phase := .accumulating },
        [[0x00, 0, 0, 0, 0, 0, 0, 0, 0x11]]) := by decide +kernel

/-- Section 2.3, "10 then 26": a block across buffer and payload, then a whole one. -/
theorem test_write32_crosses_two_blocks :
    read (fun s => s.ctx32)
      (exec (.write32 (ascii "klmnopqrstuvwxyz0123456789")) (buffered32 (ascii "abcdefghij"))) =
    some
      { seed := 0
        v := { v1 := 0x0C7E2941, v2 := 0x93BA994B, v3 := 0xEF8B06FF, v4 := 0x2EB39AC3 }
        totalLength := 36, buf := [0x36, 0x37, 0x38, 0x39], phase := .accumulating } := by decide +kernel

/-- R161's example: 63 bytes from power-on. -/
theorem test_write64 :
    read (fun s => (s.ctx64, s.rspOut))
      (exec (.write64 (ascii "Call me Ishmael. Some years ago--never mind how long precisely-")) State.reset) =
    some
      ({ seed := 0
         v := { v1 := 0x670B8618B3AA2200, v2 := 0xFC3FF3C0203BC028, v3 := 0x9677E9E66681D852, v4 := 0xDA7D9AAFD0C02036 }
         totalLength := 63, buf := ascii "-never mind how long precisely-", phase := .accumulating },
        [[0x00, 0, 0, 0, 0, 0, 0, 0, 0x3F]]) := by decide +kernel

/-- Section 2.3, "31 then 1": the buffer filled exactly. -/
theorem test_write64_fills_exactly :
    read (fun s => s.ctx64) (exec (.write64 [0x1F]) (buffered64 (pat 31))) =
    some
      { seed := 0
        v := { v1 := 0xF4B53B57406B5E99, v2 := 0xC3D34B511FC32561, v3 := 0xCB26C007C8A1553F, v4 := 0x9A44D001A7F91C07 }
        totalLength := 32, buf := [], phase := .accumulating } := by decide +kernel

/-- R163's example. -/
theorem test_sum32 : read State.rspOut (exec .sum32 (buffered32 (ascii "abc"))) = some [[0x00, 0x32, 0xD1, 0x53, 0xFF]] := by
  decide

/-- Section 2.5: the counter wrapped to 1, so the lanes are not read although a block was absorbed. -/
theorem test_sum32_after_the_counter_wraps :
    (read (fun s => (s.ctx32.totalLength, s.ctx32.buf, read State.rspOut (exec .sum32 { s with rspOut := [] })))
      (exec (.write32 (ascii "abcdefghijklmnopq"))
        { State.reset with ctx32 := { State.reset.ctx32 with totalLength := 0xFFFFFFFFFFFFFFF0 } })) =
    some (1, [0x71], some [[0x00, 0xA1, 0x1F, 0x6F, 0x39]]) := by decide +kernel

/-- R164: the source's vector for the empty input. -/
theorem test_sum64 :
    read State.rspOut (exec .sum64 State.reset) = some [[0x00, 0xEF, 0x46, 0xDB, 0x37, 0x51, 0xD8, 0xE9, 0x99]] := by decide

/-- The source's 63-byte vector, on the context R161's example leaves. -/
theorem test_sum64_converges :
    read State.rspOut (exec .sum64 { State.reset with ctx64 :=
      { seed := 0
        v := { v1 := 0x670B8618B3AA2200, v2 := 0xFC3FF3C0203BC028, v3 := 0x9677E9E66681D852, v4 := 0xDA7D9AAFD0C02036 }
        totalLength := 63, buf := ascii "-never mind how long precisely-", phase := .accumulating } }) =
    some [[0x00, 0x02, 0xA2, 0xE8, 0x54, 0x70, 0xD6, 0xFD, 0x96]] := by decide +kernel

/-- Program P2, row 8: two blocks, a word and three bytes, with a seed. -/
theorem test_cksum32 :
    read State.rspOut (exec (.cksum32 0x9E3779B1 (ascii "Nobody inspects the spammish repetition")) State.reset) =
    some [[0x00, 0xC9, 0xE8, 0x9E, 0x68]] := by decide +kernel

/-- Section 2.4: one byte less than a block, the greatest seed. -/
theorem test_cksum32_below_a_block :
    read State.rspOut (exec (.cksum32 0xFFFFFFFF (pat 15)) State.reset) = some [[0x00, 0xB8, 0xE0, 0x5D, 0x5A]] := by
  decide +kernel

/-- The source's 63-byte vector. -/
theorem test_cksum64 :
    read State.rspOut
      (exec (.cksum64 0 (ascii "Call me Ishmael. Some years ago--never mind how long precisely-")) State.reset) =
    some [[0x00, 0x02, 0xA2, 0xE8, 0x54, 0x70, 0xD6, 0xFD, 0x96]] := by decide +kernel

/-- Section 2.4: seed 1, one byte less than a block. -/
theorem test_cksum64_below_a_block :
    read State.rspOut (exec (.cksum64 1 (pat 31)) State.reset) =
    some [[0x00, 0xF0, 0x31, 0x03, 0x1D, 0x65, 0x97, 0x7D, 0xFC]] := by decide +kernel

theorem test_bsize32 : read State.rspOut (exec .bsize32 State.reset) = some [[0x00, 0x10]] := by decide
theorem test_bsize64 : read State.rspOut (exec .bsize64 State.reset) = some [[0x00, 0x20]] := by decide
theorem test_dsize32 : read State.rspOut (exec .dsize32 State.reset) = some [[0x00, 0x04]] := by decide
theorem test_dsize64 : read State.rspOut (exec .dsize64 State.reset) = some [[0x00, 0x08]] := by decide

/-! ## The step and the ports: spec/95_test_vectors.md section 2.5 -/

/-- `.byte 0x00, 0x06`: the error takes one byte, and the next byte is a header. -/
theorem test_step_error_takes_one_byte :
    read (fun s => (s.cmdIn, s.rspOut)) (step (sent [0x00, 0x06])) = some ([0x06], [[0x01]]) := by decide

/-- A payload byte 0x10 is data, not a header (R78). -/
theorem test_step_payload_is_not_framing :
    read (fun s => (s.ctx64.buf, s.cmdIn)) (step (sent [0x0B, 0x01, 0, 0, 0, 0, 0, 0, 0, 0x10, 0x0C])) =
      some ([0x10], [0x0C]) := by decide

/-- A row of the opcode table, placed and run as the first instruction after reset. -/
theorem test_step_runs_the_placed_word :
    read State.rspOut (step (State.reset.withFetchWord 8 0x05)) = some [[0x00, 0x02, 0xCC, 0x5D, 0x05]] := by decide

/-- Engine and host taking turns: a split packet, held until its last byte is there; the response is taken. -/
theorem test_system_split_packet :
    (systemRun System.start
      [.host (.send [0x01, 0x78, 0x56]), .engine, .host (.send [0x34, 0x12]), .engine, .host .take, .host .take]).taken =
      [[0x00]] := by decide

/-! ## The assembler: R89 to R92 -/

theorem test_assemble_seed_and_comment :
    assembleText "INIT32 0x12345678 ; construct" = some [0x01, 0x78, 0x56, 0x34, 0x12] := by decide

theorem test_assemble_two_lines :
    assembleText "WRITE64 \"abc\"\nSUM32" = some [0x0B, 3, 0, 0, 0, 0, 0, 0, 0, 0x61, 0x62, 0x63, 0x04] := by decide

theorem test_assemble_rep_and_hex :
    assembleText "WRITE32 rep(2, x\"FF 0A\")" = some [0x03, 4, 0, 0, 0, 0, 0, 0, 0, 0xFF, 0x0A, 0xFF, 0x0A] := by decide

theorem test_assemble_pseudo :
    assembleText "HASH32 7, \"\\\\\"" = some [0x01, 7, 0, 0, 0, 0x03, 1, 0, 0, 0, 0, 0, 0, 0, 0x5C, 0x04] := by decide

theorem test_assemble_refuses_wide_seed : assembleText "INIT32 4294967296" = none := by decide

/-! ## Witnesses: for each obligation with hypotheses, what meets them together -/

theorem test_witness_EveryHeaderByteHasItsOutcome : 0x10 ≤ (0x10 : Byte).toNat ∧ 0x10 ≤ (0xFF : Byte).toNat := by decide

theorem test_witness_DecodeUndoesEncode :
    (Instr.cksum64 0xFFFFFFFFFFFFFFFF [0x00, 0xFF]).wellFormed = true ∧ (Instr.write32 []).wellFormed = true ∧
      (Instr.init32 0).wellFormed = true := by decide

theorem test_witness_EncodeUndoesDecode : decode [0x03, 0, 0, 0, 0, 0, 0, 0, 0, 0x10] = .command (.write32 []) [0x10] := by
  decide

theorem test_witness_PacketLengthsByFormat :
    (Instr.reset64).wellFormed = true ∧ (Instr.init64 1).wellFormed = true ∧ (Instr.write64 [0x61]).wellFormed = true ∧
      (Instr.cksum32 1 [0x61]).wellFormed = true := by decide

theorem test_witness_ParserConsumesThePacketLength :
    decode [] = .incomplete ∧ decode [0x01, 0, 0, 0] = .incomplete ∧ decode [0x0C, 0x0C] = .command .sum64 [0x0C] ∧
      decode [0x10] = .malformed .errReserved [] := by decide

theorem test_witness_LaterBytesDoNotChangeAPacket :
    decode [0x01, 0, 0, 0, 0] = .command (.init32 0) [] ∧ decode [0x08, 0x01] = .malformed .errOpcode [0x01] := by decide

theorem test_witness_TableRowsDecodeAndRun : ((0x0F : Nat), Instr.dsize64) ∈
    [((0x01 : Nat), Instr.init32 0), (0x02, .reset32), (0x03, .write32 []), (0x04, .sum32), (0x05, .cksum32 0 []),
      (0x06, .bsize32), (0x07, .dsize32), (0x09, .init64 0), (0x0A, .reset64), (0x0B, .write64 []), (0x0C, .sum64),
      (0x0D, .cksum64 0 []), (0x0E, .bsize64), (0x0F, .dsize64)] := by decide

theorem test_witness_StepRunsTheDecodedCommand :
    (sent [0x04, 0x00]).Ready ∧ decode (sent [0x04, 0x00]).cmdIn = .command .sum32 [0x00] := by decide

theorem test_witness_StepAnswersAMalformedHeader :
    (read State.rspOut (step (sent [0xA5])) = some ((sent [0xA5]).rspOut ++ [0x02 :: []]) ∧ (0x02 : Byte) ≠ 0x00) ∧
    ((sent [0x10, 0x06]).Ready ∧ (sent [0x10, 0x06]).cmdIn = 0x10 :: [0x06] ∧ (0x10 : Byte).extractLsb' 4 4 ≠ 0) ∧
      ((sent [0x08]).Ready ∧ (sent [0x08]).cmdIn = 0x08 :: [] ∧ (0x08 : Byte).extractLsb' 4 4 = 0 ∧
        (0x08 : Byte).extractLsb' 0 3 = 0) := by decide

theorem test_witness_PartialPacketHoldsTheEngine :
    ((sent []).Ready ∧ Instr.reset32.wellFormed = true ∧ [(0x02 : Byte)] ≠ [] ∧
      (sent []).cmdIn ++ [0x02] = encode .reset32) ∧
    ((sent [0x01, 0x78, 0x56]).Ready ∧ (Instr.init32 0x12345678).wellFormed = true ∧ [(0x34 : Byte), 0x12] ≠ [] ∧
      (sent [0x01, 0x78, 0x56]).cmdIn ++ [0x34, 0x12] = encode (.init32 0x12345678)) := by decide

/-- The power-on state with as many untaken responses as the queue holds. -/
def full : State := { State.reset with rspOut := List.replicate Config.rspDepth [0x00] }

theorem test_witness_FullResponseQueueHoldsTheEngine :
    full.fault = none ∧ full.BuffersInRange ∧ full.rspOut.length = Config.rspDepth :=
  ⟨rfl, by decide, List.length_replicate⟩

/-- A context with a full buffer, which no run reaches. -/
def broken32 : State := buffered32 (pat 16)

/-- The same of CTX64. -/
def broken64 : State := buffered64 (pat 32)

theorem test_witness_InvariantFaultIsRecordedForGood :
    (broken32.fault = none ∧ brokenContext broken32 = some (.contextBufferFull .w32)) ∧
    (broken64.fault = none ∧ brokenContext broken64 = some (.contextBufferFull .w64)) ∧
    (recordFault State.reset .readerOutOfRange).fault = some .readerOutOfRange ∧
    { System.start with core := recordFault State.reset .readerOutOfRange }.core.fault = some .readerOutOfRange := by decide

theorem test_witness_StepEmitsExactlyOneResponse :
    (read State.fault (step (sent [0x06])) = some none ∧ decode (sent [0x06]).cmdIn = .command .bsize32 []) ∧
    (read State.fault (step (sent [0x00])) = some none ∧ decode (sent [0x00]).cmdIn = .malformed .errOpcode []) ∧
    (read State.fault (step (sent [0xFF])) = some none ∧ decode (sent [0xFF]).cmdIn = .malformed .errReserved []) := by
  decide

theorem test_witness_StepConsumesExactlyItsPacket :
    read (fun t => (t.fault, t.cmdIn)) (step (sent [0x01, 0, 0, 0, 0, 0x07])) = some (none, [0x07]) := by decide

theorem test_witness_EveryWholePacketIsAccepted :
    (sent [0x0D, 0, 0, 0, 0, 0, 0, 0, 0, 1, 0, 0, 0, 0, 0, 0, 0, 0xFF]).Ready ∧
      decode (sent [0x0D, 0, 0, 0, 0, 0, 0, 0, 0, 1, 0, 0, 0, 0, 0, 0, 0, 0xFF]).cmdIn ≠ .incomplete := by decide

theorem test_witness_WriteAbsorbsTheCompleteBlocks :
    (buffered32 []).ctx32.buf.length < 16 ∧ (buffered32 (pat 15)).ctx32.buf.length < 16 ∧
      (buffered64 []).ctx64.buf.length < 32 ∧ (buffered64 (pat 31)).ctx64.buf.length < 32 := by decide

theorem test_witness_ShortWriteOnlyAppends :
    (buffered32 (pat 14)).ctx32.buf.length + [(0x10 : Byte)].length < 16 ∧
      (buffered64 (pat 30)).ctx64.buf.length + [(0x10 : Byte)].length < 32 ∧
      (buffered32 (pat 15)).ctx32.buf.length < 16 ∧ (buffered64 (pat 31)).ctx64.buf.length < 32 := by decide

theorem test_witness_SumAnswersTheContextsDigest :
    (buffered32 (pat 15)).ctx32.buf.length < 16 ∧ (buffered64 (pat 31)).ctx64.buf.length < 32 := by decide

theorem test_witness_CommandsOnAFullBufferRecordTheFault :
    16 ≤ broken32.ctx32.buf.length ∧ 32 ≤ broken64.ctx64.buf.length := by decide

theorem test_witness_ByteReaderIsLittleEndian : (pat 3).length < 0 + 4 ∧ (pat 8).length < 1 + 8 := by decide

theorem test_witness_RoundsAndTailStepsFollowTheirRules : 0 < 31 ∧ 31 < 32 ∧ 0 < 63 ∧ 63 < 64 := by decide

theorem test_witness_WideAndNarrowReadsAgree : 1 + 8 ≤ (pat 9).length ∧ 4 ≤ 4 := by decide

theorem test_witness_BlockMixesEachLaneWithItsWord : 1 + 16 ≤ (pat 17).length ∧ 0 + 32 ≤ (pat 32).length := by decide

theorem test_witness_AbsorbTakesBlocksInOrder :
    (pat 15).length < 16 ∧ (pat 16).length = 16 ∧ (pat 31).length < 32 ∧ (pat 32).length = 32 := by decide

theorem test_witness_TailSteps : (pat 2).length < 3 ∧ (pat 3).length < 4 := by decide

theorem test_witness_MixersFollowTheirRules : (15 : U64).toNat < 16 ∧ (31 : U64).toNat < 32 := by decide

theorem test_witness_CommandsTouchOnlyTheirOwnContext :
    (Instr.write32 [0x61]).width = .w32 ∧ (Instr.sum64).width = .w64 ∧ (Instr.cksum64 0 []).operation = .cksum ∧
      read State.ctx64 (exec (.write32 [0x61]) State.reset) = some State.reset.ctx64 ∧
      read State.ctx32 (exec .sum64 State.reset) = some State.reset.ctx32 ∧
      read (fun t => (t.ctx32, t.ctx64)) (exec (.cksum64 0 []) State.reset) =
        some (State.reset.ctx32, State.reset.ctx64) := by decide

theorem test_witness_OnlyInitWritesTheSeed :
    read (fun t => (t.ctx32.seed, t.ctx64.seed)) (exec (.init32 5) State.reset) = some (5, 0) ∧
      read (fun t => (t.ctx32.seed, t.ctx64.seed)) (exec (.init64 5) State.reset) = some (0, 5) := by decide

theorem test_witness_OnlyInitWritesTheSeed_host : HostAction.send [0x01] ≠ .powerOnReset ∧ HostAction.take ≠ .powerOnReset := by
  decide

theorem test_witness_OnlyInitWritesTheSeed_others (seed : U32) (seed' : U64) :
    Instr.reset32 ≠ .init32 seed ∧ Instr.reset32 ≠ .init64 seed' :=
  ⟨Instr.noConfusion, Instr.noConfusion⟩

theorem test_witness_OnlyWritersChangeAContext :
    (exec .sum32 State.reset = .next { State.reset with rspOut := [[0x00, 0x02, 0xCC, 0x5D, 0x05]] } ∧
      ¬ Writes .w32 .sum32) ∧
    (exec (.init32 0) State.reset = .next { State.reset with rspOut := [[0x00]] } ∧ ¬ Writes .w64 (.init32 0)) :=
  ⟨⟨rfl, fun h => by cases h.2⟩, ⟨rfl, fun h => by cases h.1⟩⟩

theorem test_witness_QueriesOnlyAddAResponse :
    (buffered32 (pat 15)).BuffersInRange ∧ Instr.sum32.writesContext = false ∧
      (Instr.cksum64 0 [0xFF]).writesContext = false := by decide

/-- A `SUM32`, then bytes arriving, an error response, a `SUM64` and the other context's `INIT64`. -/
theorem test_witness_SumIsIdempotent :
    ∃ t u, State.reset.ctx32.buf.length < 16 ∧ exec .sum32 State.reset = .next t ∧ Quiet .w32 t u ∧ t ≠ u := by
  refine ⟨_, _, by decide, rfl,
    .error .errOpcode (.command .sum64 (fun h => by cases h.1) rfl (.command (.init64 1) (fun h => by cases h.1) rfl
      (.ports [0x04] [] (.refl _)))), by decide⟩

/-- The same for `SUM64`, with a `WRITE32` between. -/
theorem test_witness_SumIsIdempotent64 :
    ∃ t u, State.reset.ctx64.buf.length < 32 ∧ exec .sum64 State.reset = .next t ∧ Quiet .w64 t u ∧ t ≠ u := by
  refine ⟨_, _, by decide, rfl, .command (.write32 [0x61]) (fun h => by cases h.1) rfl (.refl _), by decide⟩

theorem test_witness_CksumDisturbsNoSequence :
    (Instr.cksum64 0 [0x78]).operation = .cksum ∧
      ∃ u, execAll ([.write32 [0x61]] ++ [.sum32]) State.reset = .next u :=
  ⟨rfl, _, rfl⟩

theorem test_witness_TwoWritesAreOneWrite :
    (∃ t u w, State.reset.ctx32.buf.length < 16 ∧ exec (.write32 (pat 15)) State.reset = .next t ∧
      exec (.write32 [0x0F]) t = .next u ∧ exec (.write32 (pat 15 ++ [0x0F])) State.reset = .next w) ∧
    (∃ t u w, State.reset.ctx64.buf.length < 32 ∧ exec (.write64 [0x00]) State.reset = .next t ∧
      exec (.write64 [0x01]) t = .next u ∧ exec (.write64 ([0x00] ++ [0x01])) State.reset = .next w) :=
  ⟨⟨_, _, _, by decide, rfl, rfl, rfl⟩, ⟨_, _, _, by decide, rfl, rfl, rfl⟩⟩

/-- The power-on contexts are what the empty history of payloads makes of them. -/
theorem test_witness_Streams32 : Streams32 State.reset.ctx32 [] := ⟨by decide, by decide, by decide⟩

theorem test_witness_Streams64 : Streams64 State.reset.ctx64 [] := ⟨by decide, by decide, by decide⟩

/-- Fifteen buffered bytes are what the history of those bytes makes of CTX32. -/
theorem test_witness_Streams32_buffered : Streams32 (buffered32 (pat 15)).ctx32 (pat 15) :=
  ⟨by decide, by decide, by decide⟩

theorem test_witness_accounted (cmdIn : List Byte) : (sent cmdIn).Accounted :=
  ⟨⟨[], test_witness_Streams32⟩, ⟨[], test_witness_Streams64⟩⟩

theorem test_witness_ContextsFollowTheirHistory :
    Streams32 (buffered32 (pat 15)).ctx32 (pat 15) ∧ Streams64 (buffered32 (pat 15)).ctx64 [] ∧
      ∃ t, execAll [.write32 [0x0F], .reset64] (buffered32 (pat 15)) = .next t :=
  ⟨test_witness_Streams32_buffered, test_witness_Streams64, _, rfl⟩

/-- A block completed by the step's `WRITE32`, a context emptied by its `RESET64`, and a malformed header byte. -/
theorem test_witness_EveryStepKeepsContextsAccounted :
    (Streams32 (hostSend (buffered32 (pat 15)) [0x03, 1, 0, 0, 0, 0, 0, 0, 0, 0x0F]).ctx32 (pat 15) ∧
      Streams64 (hostSend (buffered32 (pat 15)) [0x03, 1, 0, 0, 0, 0, 0, 0, 0, 0x0F]).ctx64 [] ∧
      ∃ t, step (hostSend (buffered32 (pat 15)) [0x03, 1, 0, 0, 0, 0, 0, 0, 0, 0x0F]) = .next t) ∧
    (Streams32 (sent [0x0A]).ctx32 [] ∧ Streams64 (sent [0x0A]).ctx64 [] ∧ ∃ t, step (sent [0x0A]) = .next t) ∧
    (Streams32 (sent [0x10]).ctx32 [] ∧ Streams64 (sent [0x10]).ctx64 [] ∧ ∃ t, step (sent [0x10]) = .next t) :=
  ⟨⟨test_witness_Streams32_buffered, test_witness_Streams64, _, rfl⟩, ⟨test_witness_Streams32, test_witness_Streams64, _, rfl⟩,
    test_witness_Streams32, test_witness_Streams64, _, rfl⟩

/-- The history a stream of an `INIT32`, a malformed byte and two `WRITE32`s, the last unfinished, gives CTX32. -/
theorem test_history_of_a_stream :
    historyOf .w32 ([0x01, 0, 0, 0, 0] ++ [0x10] ++ [0x03, 1, 0, 0, 0, 0, 0, 0, 0, 0x61] ++ [0x03, 1]) = [0x61] := by decide

theorem test_witness_EveryStepKeepsTheLengthLaw :
    ((buffered32 (pat 15)).BuffersInRange ∧ (buffered32 (pat 15)).LengthsAgree) ∧
      read State.fault (step (hostSend (buffered32 (pat 15)) [0x03, 1, 0, 0, 0, 0, 0, 0, 0, 0xFF])) = some none := by
  decide

theorem test_witness_ResponseQueueStaysInItsDepth :
    (∃ t, (sent [0x02]).QueueInDepth ∧ step (sent [0x02]) = .next t) ∧ full.QueueInDepth :=
  ⟨⟨_, Nat.zero_le _, rfl⟩, Nat.le_of_eq List.length_replicate⟩

/-- Two runs that send the same bytes split differently and consume them all, one taking the response. -/
theorem test_witness_HostTimingChangesNoResult :
    System.start.core.fault = none ∧ System.start.core.BuffersInRange ∧
      ResetFree [.host (.send [0x01, 0x05]), .engine, .host (.send [0x00, 0x00, 0x00]), .engine, .host .take] ∧
      ResetFree [.host (.send [0x01, 0x05, 0x00, 0x00, 0x00]), .engine] ∧
      sentBytes [.host (.send [0x01, 0x05]), .engine, .host (.send [0x00, 0x00, 0x00]), .engine, .host .take] =
        sentBytes [.host (.send [0x01, 0x05, 0x00, 0x00, 0x00]), .engine] ∧
      (systemRun System.start
        [.host (.send [0x01, 0x05]), .engine, .host (.send [0x00, 0x00, 0x00]), .engine, .host .take]).core.cmdIn = [] ∧
      (systemRun System.start [.host (.send [0x01, 0x05, 0x00, 0x00, 0x00]), .engine]).core.cmdIn = [] := by
  unfold ResetFree
  decide

theorem test_witness_HostReachesOnlyThePorts :
    { State.reset with rspOut := [[0x00], [0x01]] }.rspOut = [0x00] :: [[0x01]] ∧ State.reset.rspOut = [] := by decide

theorem test_witness_PowerOnResetDiscardsEverything : (buffered64 (pat 31)).fault = none := by decide

/-- A power-on system with these bytes sent. -/
def started (bytes : List Byte) : System := { System.start with core := sent bytes }

theorem test_witness_RunStatusFollowsTheDefinition :
    runStatus [0x06] (systemRun (started [0x06]) [.engine]) = .finished ∧
      ((started [0x01]).core.Ready ∧ decode (started [0x01]).core.cmdIn = .incomplete ∧ (started [0x01]).core.cmdIn ≠ []) ∧
      ((started []).core.Ready ∧ decode (started []).core.cmdIn = .incomplete ∧ (started []).consumed ≠ [0x06]) ∧
      { System.start with core := recordFault State.reset .readerOutOfRange }.core.fault = some .readerOutOfRange ∧
      (broken64.fault = none ∧ brokenContext broken64 = some (.contextBufferFull .w64)) ∧
      runStatus [0x02] (started [0x02]) = .running ∧ [(0x06 : Byte)] ≠ [] := by decide

theorem test_witness_RunStatusFollowsTheDefinition_full :
    (hostSend full [0x02]).fault = none ∧ (hostSend full [0x02]).BuffersInRange ∧
      (hostSend full [0x02]).rspOut.length = Config.rspDepth ∧ (hostSend full [0x02]).cmdIn ≠ [] :=
  ⟨rfl, by decide, List.length_replicate, by decide⟩

/-- R249's third condition: with the stream's response discarded by a power-on reset the run is not finished. -/
theorem test_run_reset_discards_the_stream :
    runStatus [0x06] (systemRun (started [0x06]) [.engine, .host .powerOnReset]) = .held .heldIncompletePacket ∧
      runStatus [0x06] (systemRun (started [0x06]) [.host .powerOnReset]) = .held .heldIncompletePacket := by decide

/-- A run whose host took the response is as finished as one whose host did not; with a byte pending it is held. -/
theorem test_run_finished_whoever_holds_the_response :
    runStatus [0x00] (systemRun (started [0x00]) [.engine, .host .take]) = .finished ∧
      runStatus [0x00, 0x01] (systemRun (started [0x00, 0x01]) [.engine, .host .take]) = .held .heldIncompletePacket := by
  decide

theorem test_witness_EveryConsumedStreamIsFinished :
    ResetFree [.host (.send [0x00, 0x07]), .engine, .host .take, .engine] ∧
      (systemRun System.start [.host (.send [0x00, 0x07]), .engine, .host .take, .engine]).core.cmdIn = [] := by
  unfold ResetFree
  decide

/-- Two finished runs on one stream, the second after a power-on reset. -/
theorem test_witness_FinishedRunsAgree :
    runStatus [0x0E] (systemRun System.start [.host (.send [0x0E]), .engine, .host .take]) = .finished ∧
      runStatus [0x0E]
        (systemRun System.start
          [.host (.send [0x09]), .host .powerOnReset, .host (.send [0x0E]), .engine]) = .finished := by decide

end Sys2Proof.Tests
end

section
/-!
SUPPORT. What `WRITE` makes of a context, as a function of the buffered bytes followed by the payload: the lanes with the
complete blocks mixed in and the bytes after those blocks; and that splitting the bytes changes neither (R28, R160, R161).
-/

namespace Sys2Proof.Machine

variable {w : Nat} {W : Width} {mix : Lanes w → List Byte → Lanes w}

/-- The lanes with every complete block of the bytes mixed in, in order (R110). -/
def mixBlocks (W : Width) (mix : Lanes w → List Byte → Lanes w) (v : Lanes w) (bytes : List Byte) : Lanes w :=
  foldChunks (blockSize W) mix (bytes.length / blockSize W) v bytes

/-- The bytes after the last complete block (R28). -/
def afterBlocks (W : Width) (bytes : List Byte) : List Byte :=
  bytes.drop (blockSize W * (bytes.length / blockSize W))

/-- The context that `WRITE` leaves when its buffer is in range (R160, R161). -/
def written (W : Width) (mix : Lanes w → List Byte → Lanes w) (ctx : Ctx w) (d : List Byte) : Ctx w where
  phase := .accumulating
  seed := ctx.seed
  v := mixBlocks W mix ctx.v (ctx.buf ++ d)
  totalLength := ctx.totalLength + lenOf d
  buf := afterBlocks W (ctx.buf ++ d)

@[simp] theorem written_phase (ctx : Ctx w) (d : List Byte) : (written W mix ctx d).phase = .accumulating := rfl
@[simp] theorem written_seed (ctx : Ctx w) (d : List Byte) : (written W mix ctx d).seed = ctx.seed := rfl
@[simp] theorem written_v (ctx : Ctx w) (d : List Byte) :
    (written W mix ctx d).v = mixBlocks W mix ctx.v (ctx.buf ++ d) := rfl
@[simp] theorem written_totalLength (ctx : Ctx w) (d : List Byte) :
    (written W mix ctx d).totalLength = ctx.totalLength + lenOf d := rfl
@[simp] theorem written_buf (ctx : Ctx w) (d : List Byte) :
    (written W mix ctx d).buf = afterBlocks W (ctx.buf ++ d) := rfl

/-! ## The bytes after the complete blocks -/

theorem afterBlocks_length (W : Width) (bytes : List Byte) :
    (afterBlocks W bytes).length = bytes.length % blockSize W := by
  have := Nat.div_add_mod bytes.length (blockSize W)
  rw [afterBlocks, List.length_drop]
  omega

theorem afterBlocks_length_lt (W : Width) (bytes : List Byte) : (afterBlocks W bytes).length < blockSize W :=
  rest_lt W bytes

/-- Fewer bytes than a block hold no complete one. -/
theorem mixBlocks_of_lt {v : Lanes w} {bytes : List Byte} (h : bytes.length < blockSize W) :
    mixBlocks W mix v bytes = v := by
  rw [mixBlocks, Nat.div_eq_of_lt h, foldChunks]

theorem afterBlocks_of_lt {bytes : List Byte} (h : bytes.length < blockSize W) : afterBlocks W bytes = bytes := by
  rw [afterBlocks, Nat.div_eq_of_lt h, Nat.mul_zero, List.drop_zero]

/-! ## Splitting the bytes

A byte sequence is a whole number of blocks `x` and the bytes after them; in front of any bytes `y`, such an `x` only puts
its own blocks first. -/

/-- The complete blocks of the bytes are a whole number of blocks. -/
theorem exists_blocks_append (W : Width) (bytes : List Byte) :
    ∃ x k, x.length = blockSize W * k ∧ bytes = x ++ afterBlocks W bytes := by
  refine ⟨bytes.take (blockSize W * (bytes.length / blockSize W)), bytes.length / blockSize W, ?_,
    (List.take_append_drop _ _).symm⟩
  rw [List.length_take, Nat.min_eq_left (Nat.mul_div_le _ _)]

variable {x : List Byte} {k : Nat}

theorem length_div_of_blocks_append (hx : x.length = blockSize W * k) (y : List Byte) :
    (x ++ y).length / blockSize W = k + y.length / blockSize W := by
  rw [List.length_append, hx, Nat.mul_add_div (blockSize_pos W)]

theorem afterBlocks_of_blocks_append (hx : x.length = blockSize W * k) (y : List Byte) :
    afterBlocks W (x ++ y) = afterBlocks W y := by
  rw [afterBlocks, length_div_of_blocks_append hx, Nat.mul_add, ← hx, List.drop_append, afterBlocks,
    List.drop_of_length_le (by omega), Nat.add_sub_cancel_left, List.nil_append]

theorem mixBlocks_of_blocks_append (hx : x.length = blockSize W * k) (v : Lanes w) (y : List Byte) :
    mixBlocks W mix v (x ++ y) = mixBlocks W mix (mixBlocks W mix v x) y := by
  have hk : x.length / blockSize W = k := by rw [hx, Nat.mul_div_cancel_left _ (blockSize_pos W)]
  rw [mixBlocks, length_div_of_blocks_append hx, foldChunks_append hx, mixBlocks, mixBlocks, hk]

/-- Keeping only the bytes after the complete blocks loses none that a later block needs. -/
theorem afterBlocks_append (W : Width) (a b : List Byte) :
    afterBlocks W (afterBlocks W a ++ b) = afterBlocks W (a ++ b) := by
  obtain ⟨x, k, hx, ha⟩ := exists_blocks_append W a
  conv_rhs => rw [ha, List.append_assoc, afterBlocks_of_blocks_append hx]

/-- Mixing can stop after any bytes and go on with those after the last complete block (R28, R167). -/
theorem mixBlocks_append (v : Lanes w) (a b : List Byte) :
    mixBlocks W mix (mixBlocks W mix v a) (afterBlocks W a ++ b) = mixBlocks W mix v (a ++ b) := by
  obtain ⟨x, k, hx, ha⟩ := exists_blocks_append W a
  have hstop : mixBlocks W mix v a = mixBlocks W mix v x := by
    rw [ha, mixBlocks_of_blocks_append hx, mixBlocks_of_lt (afterBlocks_length_lt W a)]
  conv_rhs => rw [ha, List.append_assoc, mixBlocks_of_blocks_append hx]
  rw [hstop]

theorem lenOf_append (a b : List Byte) : lenOf (a ++ b) = lenOf a + lenOf b := by
  rw [lenOf, List.length_append, BitVec.ofNat_add, lenOf, lenOf]

/-- Two writes are one write of both payloads. -/
theorem written_written (ctx : Ctx w) (a b : List Byte) :
    written W mix (written W mix ctx a) b = written W mix ctx (a ++ b) := by
  simp only [written, mixBlocks_append, afterBlocks_append, List.append_assoc, lenOf_append, BitVec.add_assoc]

end Sys2Proof.Machine
end

section
/-!
SUPPORT. Contexts and their histories, once for both widths: what a context is made of by the payloads written to it
(R27, R28), and the length law by itself.
-/

namespace Sys2Proof.Machine

variable {w : Nat} {W : Width} {mix : Lanes w → List Byte → Lanes w} {lanes : BitVec w → Lanes w}

/-! ## What a history makes of a context -/

/-- What `Streams32` and `Streams64` say of a context and its history, for any width (R27, R28). -/
structure Follows (W : Width) (mix : Lanes w → List Byte → Lanes w) (lanes : BitVec w → Lanes w) (ctx : Ctx w)
    (S : List Byte) : Prop where
  v : ctx.v = mixBlocks W mix (lanes ctx.seed) S
  buf : ctx.buf = afterBlocks W S
  total : ctx.totalLength = lenOf S

theorem streams32_iff_follows {ctx : Ctx 32} {S : List Byte} :
    Streams32 ctx S ↔ Follows .w32 (mixChunk round32) init32 ctx S := by
  have habsorb : absorb32 (init32 ctx.seed) S = .ok (ctx.v, blockSize .w32 * (S.length / blockSize .w32)) ↔
      ctx.v = mixBlocks .w32 (mixChunk round32) (init32 ctx.seed) S := by
    simp [absorb32_ok, mixBlocks, eq_comm]
  exact ⟨fun h => ⟨habsorb.mp h.lanes, h.buffer, h.total⟩, fun h => ⟨habsorb.mpr h.v, h.buf, h.total⟩⟩

theorem streams64_iff_follows {ctx : Ctx 64} {S : List Byte} :
    Streams64 ctx S ↔ Follows .w64 (mixChunk round64) init64 ctx S := by
  have habsorb : absorb64 (init64 ctx.seed) S = .ok (ctx.v, blockSize .w64 * (S.length / blockSize .w64)) ↔
      ctx.v = mixBlocks .w64 (mixChunk round64) (init64 ctx.seed) S := by
    simp [absorb64_ok, mixBlocks, eq_comm]
  exact ⟨fun h => ⟨habsorb.mp h.lanes, h.buffer, h.total⟩, fun h => ⟨habsorb.mpr h.v, h.buf, h.total⟩⟩

/-- A new context has the empty history. -/
theorem follows_newCtx (seed : BitVec w) : Follows W mix lanes (newCtx lanes seed) [] where
  v := (mixBlocks_of_lt (bytes := []) (blockSize_pos W)).symm
  buf := (afterBlocks_of_lt (bytes := []) (blockSize_pos W)).symm
  total := rfl

/-- `WRITE` extends the history by its payload. -/
theorem Follows.written {ctx : Ctx w} {S : List Byte} (h : Follows W mix lanes ctx S) (d : List Byte) :
    Follows W mix lanes (written W mix ctx d) (S ++ d) where
  v := by rw [written_v, written_seed, h.v, h.buf, mixBlocks_append]
  buf := by rw [written_buf, h.buf, afterBlocks_append]
  total := by rw [written_totalLength, h.total, lenOf_append]

/-! ## The length law -/

/-- The length law of R28 for one context. -/
def LengthLaw (W : Width) (ctx : Ctx w) : Prop := ctx.buf.length = ctx.totalLength.toNat % blockSize W

theorem lengthsAgree_iff {s : State} : s.LengthsAgree ↔ LengthLaw .w32 s.ctx32 ∧ LengthLaw .w64 s.ctx64 := Iff.rfl

/-- The length law leaves a buffer in range, R27 (a). -/
theorem LengthLaw.buf_lt {ctx : Ctx w} (h : LengthLaw W ctx) : ctx.buf.length < blockSize W :=
  h ▸ Nat.mod_lt _ (blockSize_pos W)

/-- The counter's wrap changes no length modulo a block. -/
theorem mod_two_pow_mod_blockSize (W : Width) (n : Nat) : n % 2 ^ 64 % blockSize W = n % blockSize W :=
  Nat.mod_mod_of_dvd n (by cases W <;> decide)

theorem lengthLaw_newCtx (seed : BitVec w) : LengthLaw W (newCtx lanes seed) := (Nat.zero_mod _).symm

/-- `WRITE` keeps the length law, across the counter's wrap too. -/
theorem LengthLaw.written {ctx : Ctx w} (h : LengthLaw W ctx) (d : List Byte) : LengthLaw W (written W mix ctx d) := by
  have hbuf : ctx.buf.length = ctx.totalLength.toNat % blockSize W := h
  rw [LengthLaw, written_buf, afterBlocks_length, List.length_append, hbuf, written_totalLength, BitVec.toNat_add,
    mod_two_pow_mod_blockSize, lenOf, BitVec.toNat_ofNat, Nat.mod_add_mod, Nat.add_mod _ (_ % _),
    mod_two_pow_mod_blockSize, ← Nat.add_mod]

/-- A context with a history obeys the length law. -/
theorem Follows.lengthLaw {ctx : Ctx w} {S : List Byte} (h : Follows W mix lanes ctx S) : LengthLaw W ctx := by
  rw [LengthLaw, h.buf, h.total, afterBlocks_length, lenOf, BitVec.toNat_ofNat, mod_two_pow_mod_blockSize]

end Sys2Proof.Machine
end

section
/-!
SUPPORT. Every command in one form: it computes a response value from the two contexts alone, or finds an invariant fault; on
a value it leaves each context as `ctxAfter32` and `ctxAfter64` say and appends the response, on a fault it records it.
-/

namespace Sys2Proof.Machine

/-! ## The contexts a command leaves -/

/-- CTX32 after a command (R140, R142, R160). -/
def ctxAfter32 (c : Ctx 32) : Instr → Ctx 32
  | .init32 seed => newCtx init32 seed
  | .reset32 => newCtx init32 c.seed
  | .write32 data => written .w32 (mixChunk round32) c data
  | _ => c

/-- CTX64 after a command (R141, R143, R161). -/
def ctxAfter64 (c : Ctx 64) : Instr → Ctx 64
  | .init64 seed => newCtx init64 seed
  | .reset64 => newCtx init64 c.seed
  | .write64 data => written .w64 (mixChunk round64) c data
  | _ => c

/-- Everything a command can do to CTX32. -/
theorem ctxAfter32_cases (c : Ctx 32) (i : Instr) :
    (∃ seed, i = .init32 seed ∧ ctxAfter32 c i = newCtx init32 seed) ∨
      (i = .reset32 ∧ ctxAfter32 c i = newCtx init32 c.seed) ∨
      (∃ d, i = .write32 d ∧ ctxAfter32 c i = written .w32 (mixChunk round32) c d) ∨
      (¬ Writes .w32 i ∧ ctxAfter32 c i = c) := by
  cases i with
  | init32 seed => exact .inl ⟨seed, rfl, rfl⟩
  | reset32 => exact .inr (.inl ⟨rfl, rfl⟩)
  | write32 d => exact .inr (.inr (.inl ⟨d, rfl, rfl⟩))
  | _ => exact .inr (.inr (.inr ⟨by simp [Writes, Instr.width, Instr.writesContext, Instr.operation], rfl⟩))

/-- Everything a command can do to CTX64. -/
theorem ctxAfter64_cases (c : Ctx 64) (i : Instr) :
    (∃ seed, i = .init64 seed ∧ ctxAfter64 c i = newCtx init64 seed) ∨
      (i = .reset64 ∧ ctxAfter64 c i = newCtx init64 c.seed) ∨
      (∃ d, i = .write64 d ∧ ctxAfter64 c i = written .w64 (mixChunk round64) c d) ∨
      (¬ Writes .w64 i ∧ ctxAfter64 c i = c) := by
  cases i with
  | init64 seed => exact .inl ⟨seed, rfl, rfl⟩
  | reset64 => exact .inr (.inl ⟨rfl, rfl⟩)
  | write64 d => exact .inr (.inr (.inl ⟨d, rfl, rfl⟩))
  | _ => exact .inr (.inr (.inr ⟨by simp [Writes, Instr.width, Instr.writesContext, Instr.operation], rfl⟩))

section
variable {i : Instr}

/-- Only `INIT32`, `RESET32` and `WRITE32` change CTX32 (R24, R25). -/
theorem ctxAfter32_of_not_writes {c : Ctx 32} (h : ¬ Writes .w32 i) : ctxAfter32 c i = c := by
  obtain ⟨_, rfl, -⟩ | ⟨rfl, -⟩ | ⟨_, rfl, -⟩ | ⟨-, hc⟩ := ctxAfter32_cases c i
  · exact (h ⟨rfl, rfl⟩).elim
  · exact (h ⟨rfl, rfl⟩).elim
  · exact (h ⟨rfl, rfl⟩).elim
  · exact hc

/-- Only `INIT64`, `RESET64` and `WRITE64` change CTX64 (R24, R25). -/
theorem ctxAfter64_of_not_writes {c : Ctx 64} (h : ¬ Writes .w64 i) : ctxAfter64 c i = c := by
  obtain ⟨_, rfl, -⟩ | ⟨rfl, -⟩ | ⟨_, rfl, -⟩ | ⟨-, hc⟩ := ctxAfter64_cases c i
  · exact (h ⟨rfl, rfl⟩).elim
  · exact (h ⟨rfl, rfl⟩).elim
  · exact (h ⟨rfl, rfl⟩).elim
  · exact hc

/-- Only `INIT32` writes the seed of CTX32 (R23). -/
theorem ctxAfter32_seed {c : Ctx 32} (h : ∀ seed, i ≠ .init32 seed) : (ctxAfter32 c i).seed = c.seed := by
  obtain ⟨seed, hi, -⟩ | ⟨-, hc⟩ | ⟨d, -, hc⟩ | ⟨-, hc⟩ := ctxAfter32_cases c i
  · exact absurd hi (h seed)
  · rw [hc, newCtx_seed]
  · rw [hc, written_seed]
  · rw [hc]

/-- Only `INIT64` writes the seed of CTX64 (R23). -/
theorem ctxAfter64_seed {c : Ctx 64} (h : ∀ seed, i ≠ .init64 seed) : (ctxAfter64 c i).seed = c.seed := by
  obtain ⟨seed, hi, -⟩ | ⟨-, hc⟩ | ⟨d, -, hc⟩ | ⟨-, hc⟩ := ctxAfter64_cases c i
  · exact absurd hi (h seed)
  · rw [hc, newCtx_seed]
  · rw [hc, written_seed]
  · rw [hc]

/-- A command leaves CTX32 what the history with that command makes of it (R27, R28). -/
theorem streams32_ctxAfter32 {c : Ctx 32} {S : List Byte} (h : Streams32 c S) (i : Instr) :
    Streams32 (ctxAfter32 c i) (historyStep .w32 S i) := by
  obtain ⟨seed, rfl, hc⟩ | ⟨rfl, hc⟩ | ⟨d, rfl, hc⟩ | ⟨hw, hc⟩ := ctxAfter32_cases c i <;> rw [hc]
  · exact streams32_iff_follows.mpr (follows_newCtx seed)
  · exact streams32_iff_follows.mpr (follows_newCtx c.seed)
  · exact streams32_iff_follows.mpr ((streams32_iff_follows.mp h).written d)
  · rwa [historyStep_of_not_writes S hw]

/-- A command leaves CTX64 what the history with that command makes of it (R27, R28). -/
theorem streams64_ctxAfter64 {c : Ctx 64} {S : List Byte} (h : Streams64 c S) (i : Instr) :
    Streams64 (ctxAfter64 c i) (historyStep .w64 S i) := by
  obtain ⟨seed, rfl, hc⟩ | ⟨rfl, hc⟩ | ⟨d, rfl, hc⟩ | ⟨hw, hc⟩ := ctxAfter64_cases c i <;> rw [hc]
  · exact streams64_iff_follows.mpr (follows_newCtx seed)
  · exact streams64_iff_follows.mpr (follows_newCtx c.seed)
  · exact streams64_iff_follows.mpr ((streams64_iff_follows.mp h).written d)
  · rwa [historyStep_of_not_writes S hw]

/-- A command keeps the length law of CTX32 (R28). -/
theorem LengthLaw.ctxAfter32 {c : Ctx 32} (h : LengthLaw .w32 c) (i : Instr) : LengthLaw .w32 (ctxAfter32 c i) := by
  obtain ⟨seed, -, hc⟩ | ⟨-, hc⟩ | ⟨d, -, hc⟩ | ⟨-, hc⟩ := ctxAfter32_cases c i <;> rw [hc]
  · exact lengthLaw_newCtx seed
  · exact lengthLaw_newCtx c.seed
  · exact h.written d
  · exact h

/-- A command keeps the length law of CTX64 (R28). -/
theorem LengthLaw.ctxAfter64 {c : Ctx 64} (h : LengthLaw .w64 c) (i : Instr) : LengthLaw .w64 (ctxAfter64 c i) := by
  obtain ⟨seed, -, hc⟩ | ⟨-, hc⟩ | ⟨d, -, hc⟩ | ⟨-, hc⟩ := ctxAfter64_cases c i <;> rw [hc]
  · exact lengthLaw_newCtx seed
  · exact lengthLaw_newCtx c.seed
  · exact h.written d
  · exact h

end

/-! ## The response a command computes -/

/-- The value bytes of a command's OK response, or the invariant fault it finds (R86, R214). -/
def commandValue (c32 : Ctx 32) (c64 : Ctx 64) : Instr → Except InvariantFault (List Byte)
  | .init32 _ | .reset32 | .init64 _ | .reset64 => .ok []
  | .write32 data => (checkBuf .w32 c32).map fun _ => beBytes 8 (lenOf data)
  | .write64 data => (checkBuf .w64 c64).map fun _ => beBytes 8 (lenOf data)
  | .sum32 => (sumCtx .w32 mix32 c32).map (beBytes 4)
  | .sum64 => (sumCtx .w64 mix64 c64).map (beBytes 8)
  | .cksum32 seed data => (checksum32 seed data).map (beBytes 4)
  | .cksum64 seed data => (checksum64 seed data).map (beBytes 8)
  | .bsize32 => .ok [16]
  | .bsize64 => .ok [32]
  | .dsize32 => .ok [4]
  | .dsize64 => .ok [8]

theorem checkBuf_ok {w : Nat} {W : Width} {ctx : Ctx w} (h : ctx.buf.length < blockSize W) :
    checkBuf W ctx = .ok () := if_pos h

theorem checkBuf_error {w : Nat} {W : Width} {ctx : Ctx w} (h : blockSize W ≤ ctx.buf.length) :
    checkBuf W ctx = .error (.contextBufferFull W) := if_neg (Nat.not_lt.mpr h)

@[simp] theorem beBytes_length {w : Nat} (n : Nat) (v : BitVec w) : (beBytes n v).length = n := by simp [beBytes]

/-- With both buffers in range every command has a value, of its response's length (R86, R216). -/
theorem commandValue_ok {s : State} (h : s.BuffersInRange) (i : Instr) :
    ∃ value, commandValue s.ctx32 s.ctx64 i = .ok value ∧ value.length = i.valueLength := by
  obtain ⟨h32, h64⟩ := h
  cases i with
  | write32 data => exact ⟨_, by rw [commandValue, checkBuf_ok h32]; rfl, beBytes_length _ _⟩
  | write64 data => exact ⟨_, by rw [commandValue, checkBuf_ok h64]; rfl, beBytes_length _ _⟩
  | sum32 =>
    obtain ⟨d, hd⟩ := mix32_ok s.ctx32.v s.ctx32.seed s.ctx32.totalLength s.ctx32.buf
    exact ⟨_, by rw [commandValue, sumCtx_eq, if_pos h32, hd]; rfl, beBytes_length _ _⟩
  | sum64 =>
    obtain ⟨d, hd⟩ := mix64_ok s.ctx64.v s.ctx64.seed s.ctx64.totalLength s.ctx64.buf
    exact ⟨_, by rw [commandValue, sumCtx_eq, if_pos h64, hd]; rfl, beBytes_length _ _⟩
  | cksum32 seed data =>
    obtain ⟨d, hd⟩ := checksum32_ok seed data
    exact ⟨_, by rw [commandValue, hd]; rfl, beBytes_length _ _⟩
  | cksum64 seed data =>
    obtain ⟨d, hd⟩ := checksum64_ok seed data
    exact ⟨_, by rw [commandValue, hd]; rfl, beBytes_length _ _⟩
  | _ => exact ⟨_, rfl, rfl⟩

/-! ## A command's outcome -/

/-- The state after a command that answers OK with these value bytes. -/
def afterCommand (i : Instr) (value : List Byte) (s : State) : State :=
  respond { s with ctx32 := ctxAfter32 s.ctx32 i, ctx64 := ctxAfter64 s.ctx64 i } .ok value

section
variable (i : Instr) (value : List Byte) (s : State)

@[simp] theorem afterCommand_ctx32 : (afterCommand i value s).ctx32 = ctxAfter32 s.ctx32 i := rfl
@[simp] theorem afterCommand_ctx64 : (afterCommand i value s).ctx64 = ctxAfter64 s.ctx64 i := rfl
@[simp] theorem afterCommand_cmdIn : (afterCommand i value s).cmdIn = s.cmdIn := rfl
@[simp] theorem afterCommand_rspOut : (afterCommand i value s).rspOut = s.rspOut ++ [0x00 :: value] := rfl
@[simp] theorem afterCommand_fault : (afterCommand i value s).fault = s.fault := rfl

end

/-- A command's outcome from its value or fault. -/
def conclude (i : Instr) (s : State) : Except InvariantFault (List Byte) → Host.Outcome State Fault Refusal
  | .ok value => .next (afterCommand i value s)
  | .error what => .next (recordFault s what)

/-- `WRITE32` in every state: the guard of R27 (a), then the written context. -/
theorem writeCtx32_eq (ctx : Ctx 32) (d : List Byte) :
    writeCtx .w32 block32 absorb32 ctx d = (checkBuf .w32 ctx).map fun _ => written .w32 (mixChunk round32) ctx d := by
  by_cases h : ctx.buf.length < blockSize .w32
  · rw [checkBuf_ok h]; exact writeCtx32_ok ctx d h
  · rw [writeCtx_broken (Nat.not_lt.mp h), checkBuf_error (Nat.not_lt.mp h)]; rfl

/-- `WRITE64` in every state: the guard of R27 (a), then the written context. -/
theorem writeCtx64_eq (ctx : Ctx 64) (d : List Byte) :
    writeCtx .w64 block64 absorb64 ctx d = (checkBuf .w64 ctx).map fun _ => written .w64 (mixChunk round64) ctx d := by
  by_cases h : ctx.buf.length < blockSize .w64
  · rw [checkBuf_ok h]; exact writeCtx64_ok ctx d h
  · rw [writeCtx_broken (Nat.not_lt.mp h), checkBuf_error (Nat.not_lt.mp h)]; rfl

/-- Every command, in every state: its outcome is that of its value, which the two contexts alone determine. -/
theorem exec_eq_conclude (i : Instr) (s : State) : exec i s = conclude i s (commandValue s.ctx32 s.ctx64 i) := by
  cases i with
  | write32 data =>
    rw [exec, execWrite32, writeCtx32_eq, commandValue]
    cases checkBuf .w32 s.ctx32 <;> rfl
  | write64 data =>
    rw [exec, execWrite64, writeCtx64_eq, commandValue]
    cases checkBuf .w64 s.ctx64 <;> rfl
  | sum32 =>
    rw [exec, execSum32, commandValue]
    cases sumCtx .w32 mix32 s.ctx32 <;> rfl
  | sum64 =>
    rw [exec, execSum64, commandValue]
    cases sumCtx .w64 mix64 s.ctx64 <;> rfl
  | cksum32 seed data =>
    rw [exec, execCksum32, commandValue]
    cases checksum32 seed data <;> rfl
  | cksum64 seed data =>
    rw [exec, execCksum64, commandValue]
    cases checksum64 seed data <;> rfl
  | _ => rfl

/-- Everything a command can leave: its own contexts and an OK response, or a recorded fault and nothing else. -/
theorem exec_eq_next {i : Instr} {s t : State} (h : exec i s = .next t) :
    (∃ value, t = afterCommand i value s) ∨ (∃ what, t = recordFault s what) := by
  rw [exec_eq_conclude] at h
  cases hv : commandValue s.ctx32 s.ctx64 i with
  | ok value => rw [hv] at h; exact .inl ⟨value, by simpa [conclude] using h.symm⟩
  | error what => rw [hv] at h; exact .inr ⟨what, by simpa [conclude] using h.symm⟩

/-- With both buffers in range every command answers OK with a value of its length (R216). -/
theorem exec_of_buffersInRange {s : State} (h : s.BuffersInRange) (i : Instr) :
    ∃ value, value.length = i.valueLength ∧ exec i s = .next (afterCommand i value s) := by
  obtain ⟨value, hv, hl⟩ := commandValue_ok h i
  exact ⟨value, hl, by rw [exec_eq_conclude, hv]; rfl⟩

/-- No command stops the engine. -/
theorem exists_exec_eq_next (i : Instr) (s : State) : ∃ t, exec i s = .next t := by
  rw [exec_eq_conclude]
  cases commandValue s.ctx32 s.ctx64 i <;> exact ⟨_, rfl⟩

end Sys2Proof.Machine
end

section
/-!
SUPPORT. The parser and the encoder together: bytes decode to a command exactly when they begin with its packet, whose
length the parser determines (R70, R75 to R79).
-/

namespace Sys2Proof

/-! ## Fields and payloads at the front of the bytes -/

/-- A field that is taken is the little-endian bytes of its word. -/
theorem eq_leBytes_append_of_takeField {n : Nat} {bytes rest : List Byte} {v : BitVec (8 * n)}
    (h : takeField (8 * n) bytes = some (v, rest)) : bytes = leBytes n v ++ rest := by
  obtain ⟨field, hl, rfl, rfl⟩ := takeField_eq_some.mp h
  rw [Nat.mul_div_cancel_left _ (by decide)] at hl
  rw [leBytes_leWord n field hl]

theorem takeField_32_eq_some {bytes rest : List Byte} {v : U32} :
    takeField 32 bytes = some (v, rest) ↔ bytes = leBytes 4 v ++ rest :=
  ⟨eq_leBytes_append_of_takeField (n := 4), fun h => h ▸ takeField_leBytes_32 v rest⟩

theorem takeField_64_eq_some {bytes rest : List Byte} {v : U64} :
    takeField 64 bytes = some (v, rest) ↔ bytes = leBytes 8 v ++ rest :=
  ⟨eq_leBytes_append_of_takeField (n := 8), fun h => h ▸ takeField_leBytes_64 v rest⟩

/-- The `LEN` field of an encoded payload, behind any bytes, counts the payload (R77). -/
theorem lenField_encodeData (front data rest : List Byte) (h : data.length < 2 ^ 64) :
    lenField (front ++ (encodeData data ++ rest)) front.length = some data.length := by
  have hword : (leWord 64 (leBytes 8 (BitVec.ofNat 64 data.length))).toNat = data.length := by
    rw [leWord_leBytes 8, BitVec.toNat_ofNat, Nat.mod_eq_of_lt h]
  rw [lenField, if_pos (by simp [encodeData]), List.drop_left, encodeData, List.append_assoc,
    List.take_left' (leBytes_length 8 _), hword]

@[simp] theorem encodeData_length (data : List Byte) : (encodeData data).length = 8 + data.length := by
  simp [encodeData]

theorem length_lt_of_payloadFits {data : List Byte} (h : payloadFits data = true) : data.length < 2 ^ 64 :=
  of_decide_eq_true h

/-! ## Packets -/

/-- A well-formed header selects the operand fields of its operation and width (R72, R73). -/
theorem decode_headerByte_cons (op : Operation) (w : Width) (body : List Byte) :
    decode (headerByte op w :: body) = decodeBody op w body := by
  rw [decode, decodeHeader_eq_ok.mpr rfl]

/-- A well-formed command's packet decodes to it, whatever follows (R70, R75 to R78). -/
theorem decode_encode_append {i : Instr} (h : i.wellFormed = true) (rest : List Byte) :
    decode (encode i ++ rest) = .command i rest := by
  have hdata : ∀ {data}, payloadFits data = true → takePayload (encodeData data ++ rest) = some (data, rest) :=
    fun hfit => takePayload_encodeData _ rest (length_lt_of_payloadFits hfit)
  cases i with
  | init32 seed =>
    show decode (headerByte .init .w32 :: (leBytes 4 seed ++ rest)) = _
    rw [decode_headerByte_cons, decodeBody, decodeSeed, takeField_leBytes_32]
  | write32 data =>
    show decode (headerByte .write .w32 :: (encodeData data ++ rest)) = _
    rw [decode_headerByte_cons, decodeBody, decodeData, hdata h]
  | cksum32 seed data =>
    show decode (headerByte .cksum .w32 :: (leBytes 4 seed ++ encodeData data ++ rest)) = _
    rw [decode_headerByte_cons, decodeBody, decodeSeedData, List.append_assoc, takeField_leBytes_32]
    simp only [decodeData, hdata h]
  | init64 seed =>
    show decode (headerByte .init .w64 :: (leBytes 8 seed ++ rest)) = _
    rw [decode_headerByte_cons, decodeBody, decodeSeed, takeField_leBytes_64]
  | write64 data =>
    show decode (headerByte .write .w64 :: (encodeData data ++ rest)) = _
    rw [decode_headerByte_cons, decodeBody, decodeData, hdata h]
  | cksum64 seed data =>
    show decode (headerByte .cksum .w64 :: (leBytes 8 seed ++ encodeData data ++ rest)) = _
    rw [decode_headerByte_cons, decodeBody, decodeSeedData, List.append_assoc, takeField_leBytes_64]
    simp only [decodeData, hdata h]
  | _ => rfl

/-- Operand bytes that decode to a command are, with their header in front, its packet and what follows it. -/
theorem headerByte_cons_of_decodeBody {op : Operation} {w : Width} {body rest : List Byte} {i : Instr}
    (h : decodeBody op w body = .command i rest) :
    i.wellFormed = true ∧ headerByte op w :: body = encode i ++ rest := by
  cases op <;> cases w
  all_goals
    simp only [decodeBody, decodeSeed_eq_command, decodeData_eq_command, decodeSeedData_eq_command,
      takeField_32_eq_some, takeField_64_eq_some, takePayload_eq_some, Decoded.command.injEq] at h
  case init.w32 | init.w64 =>
    obtain ⟨seed, rfl, rfl⟩ := h
    exact ⟨rfl, rfl⟩
  case write.w32 | write.w64 =>
    obtain ⟨data, ⟨hfit, rfl⟩, rfl⟩ := h
    exact ⟨decide_eq_true hfit, rfl⟩
  case cksum.w32 | cksum.w64 =>
    obtain ⟨seed, after, data, rfl, ⟨hfit, rfl⟩, rfl⟩ := h
    exact ⟨decide_eq_true hfit, by simp [headerByte, encode]⟩
  all_goals
    obtain ⟨rfl, rfl⟩ := h
    exact ⟨rfl, rfl⟩

/-- Bytes decode to a command exactly when they are its packet and what follows it (R70, R75 to R78, R81). -/
theorem decode_eq_command {bytes rest : List Byte} {i : Instr} :
    decode bytes = .command i rest ↔ i.wellFormed = true ∧ bytes = encode i ++ rest := by
  constructor
  · intro h
    cases bytes with
    | nil => cases h
    | cons b body =>
      cases hd : decodeHeader b with
      | error e => rw [decode, hd] at h; cases h
      | ok p =>
        rw [decodeHeader_eq_ok.mp hd] at h ⊢
        rw [decode_headerByte_cons] at h
        exact headerByte_cons_of_decodeBody h
  · rintro ⟨hw, rfl⟩
    exact decode_encode_append hw rest

theorem encode_ne_nil (i : Instr) : encode i ≠ [] := by cases i <;> exact List.cons_ne_nil _ _

/-- The parser determines the length of a well-formed command's packet from the packet's own bytes (R79). -/
theorem packetLength_encode_append {i : Instr} (h : i.wellFormed = true) (rest : List Byte) :
    packetLength (encode i ++ rest) = some (encode i).length := by
  have hlen : ∀ (front data : List Byte) (n : Nat), payloadFits data = true → n = front.length →
      (lenField (front ++ (encodeData data ++ rest)) n).map (fun len => n + 8 + len)
        = some (front ++ encodeData data).length := by
    rintro front data n hfit rfl
    rw [lenField_encodeData front data rest (length_lt_of_payloadFits hfit), Option.map_some, List.length_append,
      encodeData_length, Nat.add_assoc]
  cases i with
  | init32 seed =>
    show some 5 = _
    simp [encode]
  | init64 seed =>
    show some 9 = _
    simp [encode]
  | write32 data => exact hlen [0x03] data 1 h rfl
  | write64 data => exact hlen [0x0B] data 1 h rfl
  | cksum32 seed data =>
    have := hlen (0x05 :: leBytes 4 seed) data 5 h (by simp)
    rw [← List.append_assoc] at this
    exact this
  | cksum64 seed data =>
    have := hlen (0x0D :: leBytes 8 seed) data 9 h (by simp)
    rw [← List.append_assoc] at this
    exact this
  | _ => rfl

/-- A malformed header byte is a packet of one byte (R74, R80). -/
theorem packetLength_malformed {h : Byte} {e : CmdError} (he : decodeHeader h = .error e) (rest : List Byte) :
    packetLength (h :: rest) = some 1 := by
  rw [packetLength, he]

end Sys2Proof
end

section
/-!
SUPPORT. The engine's fetch case by case, and everything a step that answers a next state can be (R74, R80, R214, R246).
-/

namespace Sys2Proof.Machine

/-! ## Fetching -/

section
variable {s : State}

/-- A queue at its depth holds the engine, whatever is on the command port (R246). -/
theorem fetch_of_queueFull (hf : s.fault = none) (hb : s.BuffersInRange) (hq : queueFull s = true) :
    fetch s = .stopped .heldResponseQueueFull := by
  simp only [fetch, hf, brokenContext_eq_none.mpr hb, hq, if_true]

/-- Short of a packet the engine is held (R80, R215). -/
theorem fetch_of_incomplete (hr : s.Ready) (hd : decode s.cmdIn = .incomplete) :
    fetch s = .stopped .heldIncompletePacket := by
  obtain ⟨hf, hb, hq⟩ := hr
  simp only [fetch, hf, brokenContext_eq_none.mpr hb, hq, hd, Bool.false_eq_true, if_false]

theorem queueFull_of_length_eq (h : s.rspOut.length = Config.rspDepth) : queueFull s = true :=
  decide_eq_true h.ge

/-- The host takes the oldest response of a queue that holds one (R247). -/
theorem hostTake_of_cons {packet : List Byte} {later : List (List Byte)} (h : s.rspOut = packet :: later) :
    hostTake s = some (packet, { s with rspOut := later }) := by
  rw [hostTake, h]

theorem hostTake_of_nil (h : s.rspOut = []) : hostTake s = none := by
  rw [hostTake, h]

/-! ## Steps -/

variable {t : State}

/-- Everything a step that answers a next state can be, with what it leaves. -/
theorem step_eq_next (h : step s = .next t) :
    (∃ what, brokenContext s = some what ∧ t = recordFault s what) ∨
      (s.Ready ∧ ∃ e rest, decode s.cmdIn = .malformed e rest ∧ t = raiseCmdError s e) ∨
      (s.Ready ∧ ∃ i rest value, decode s.cmdIn = .command i rest ∧ t = afterCommand i value { s with cmdIn := rest }) := by
  obtain ⟨what, -, hb, ht⟩ | ⟨b, rest, e, hr, hc, he, ht⟩ | ⟨i, rest, hr, hd, hx⟩ := step_cases h
  · exact .inl ⟨what, hb, ht⟩
  · exact .inr (.inl ⟨hr, e, rest, decode_eq_malformed.mpr ⟨b, hc, he⟩, ht⟩)
  · obtain ⟨value, -, hv⟩ := exec_of_buffersInRange (s := { s with cmdIn := rest }) hr.2.1 i
    rw [hv] at hx
    exact .inr (.inr ⟨hr, i, rest, value, hd, by simpa using hx.symm⟩)

/-- With both buffers in range a step answers a malformed header or runs a command. -/
theorem step_of_buffersInRange (hb : s.BuffersInRange) (h : step s = .next t) :
    (s.Ready ∧ ∃ e rest, decode s.cmdIn = .malformed e rest ∧ t = raiseCmdError s e) ∨
      (s.Ready ∧ ∃ i rest value, decode s.cmdIn = .command i rest ∧ t = afterCommand i value { s with cmdIn := rest }) := by
  obtain ⟨what, hbroken, -⟩ | h := step_eq_next h
  · rw [brokenContext_eq_none.mpr hb] at hbroken; cases hbroken
  · exact h

end

/-! ## The response queue -/

/-- A step that answers begins with room for its one response (R35, R246). -/
theorem step_queueInDepth {s t : State} (hs : s.QueueInDepth) (h : step s = .next t) : t.QueueInDepth := by
  obtain ⟨what, -, rfl⟩ | ⟨hr, e, rest, -, rfl⟩ | ⟨hr, i, rest, value, -, rfl⟩ := step_eq_next h
  · exact hs
  all_goals
    have hroom := queueFull_eq_false.mp hr.2.2
    simpa [State.QueueInDepth] using hroom

/-- The host adds no response (R35, R247). -/
theorem hostAct_queueInDepth {s : State} (hs : s.QueueInDepth) (a : HostAction) : (hostAct s a).QueueInDepth := by
  cases a with
  | send bytes => exact hs
  | take =>
    cases hq : s.rspOut with
    | nil => simpa only [hostAct, hostTake_of_nil hq] using hs
    | cons packet later =>
      simp only [hostAct, hostTake_of_cons hq]
      simp only [State.QueueInDepth, hq, List.length_cons] at hs ⊢
      omega
  | powerOnReset => exact Nat.zero_le _

/-! ## Histories -/

/-- A context with a history obeys the length law, and so R27 (a). -/
theorem lengthLaw_of_streams32 {c : Ctx 32} {S : List Byte} (h : Streams32 c S) : LengthLaw .w32 c :=
  (streams32_iff_follows.mp h).lengthLaw

theorem lengthLaw_of_streams64 {c : Ctx 64} {S : List Byte} (h : Streams64 c S) : LengthLaw .w64 c :=
  (streams64_iff_follows.mp h).lengthLaw

theorem buffersInRange_of_lengthLaw {s : State} (h32 : LengthLaw .w32 s.ctx32) (h64 : LengthLaw .w64 s.ctx64) :
    s.BuffersInRange := ⟨h32.buf_lt, h64.buf_lt⟩

theorem buffersInRange_of_streams {s : State} {S32 S64 : List Byte} (h32 : Streams32 s.ctx32 S32)
    (h64 : Streams64 s.ctx64 S64) : s.BuffersInRange :=
  buffersInRange_of_lengthLaw (lengthLaw_of_streams32 h32) (lengthLaw_of_streams64 h64)

end Sys2Proof.Machine
end

section
/-! The step of the engine: O12, O15, O48, O49, O50, O51. -/

namespace Sys2Proof.Proofs
open Sys2Proof Sys2Proof.Machine

/-- Settles O48, by the two things a step can do with both buffers in range. -/
theorem everyStepKeepsContextsAccounted : Obligations.EveryStepKeepsContextsAccounted := by
  intro s t S32 S64 h32 h64 h
  obtain ⟨hr, e, rest, hd, rfl⟩ | ⟨hr, i, rest, value, hd, rfl⟩ :=
    step_of_buffersInRange (buffersInRange_of_streams h32 h64) h
  · exact ⟨hr.1, .inr ⟨e, rest, hd, rfl, rfl⟩⟩
  · exact ⟨hr.1, .inl ⟨i, rest, hd, streams32_ctxAfter32 h32 i, streams64_ctxAfter64 h64 i⟩⟩

/-- Settles O12: the queue is looked at before the parser, and one response fewer leaves room. -/
theorem fullResponseQueueHoldsTheEngine : Obligations.FullResponseQueueHoldsTheEngine := by
  intro s hf hb hlen
  refine ⟨by rw [step, fetch_of_queueFull hf hb (queueFull_of_length_eq hlen)], ?_⟩
  cases hq : s.rspOut with
  | nil =>
    rw [hq] at hlen
    exact absurd hlen Config.rspDepth_pos.ne
  | cons packet later =>
    rw [hq, List.length_cons] at hlen
    exact ⟨packet, _, hostTake_of_cons hq, rfl, hf, hb, queueFull_eq_false.mpr (show later.length < _ by omega)⟩

/-- Settles O15: a step that records no fault takes a malformed header byte or a command's encoding. -/
theorem stepConsumesExactlyItsPacket : Obligations.StepConsumesExactlyItsPacket := by
  intro s t h hf
  obtain ⟨what, -, rfl⟩ | ⟨-, e, rest, hd, rfl⟩ | ⟨-, i, rest, value, hd, rfl⟩ := step_eq_next h
  · cases hf
  · obtain ⟨b, hc, he⟩ := decode_eq_malformed.mp hd
    exact ⟨1, hc ▸ packetLength_malformed he rest, Nat.one_pos, by simp [hc], rfl⟩
  · obtain ⟨hw, hc⟩ := decode_eq_command.mp hd
    exact ⟨(encode i).length, hc ▸ packetLength_encode_append hw rest, List.length_pos_of_ne_nil (encode_ne_nil i),
      by simp [hc], by simp [hc]⟩

/-- Settles O49: the buffer has the bytes after the history's complete blocks, and the counter's wrap is whole blocks. -/
theorem accountedContextsObeyTheLengthLaw : Obligations.AccountedContextsObeyTheLengthLaw := by
  rintro s ⟨⟨S32, h32⟩, S64, h64⟩
  exact ⟨buffersInRange_of_streams h32 h64, lengthLaw_of_streams32 h32, lengthLaw_of_streams64 h64⟩

/-- Settles O50: an error response leaves the contexts, and a command keeps the length law of each. -/
theorem everyStepKeepsTheLengthLaw : Obligations.EveryStepKeepsTheLengthLaw := by
  rintro s t ⟨hb, hl⟩ h
  obtain ⟨-, e, rest, -, rfl⟩ | ⟨-, i, rest, value, -, rfl⟩ := step_of_buffersInRange hb h
  · exact ⟨hb, hl⟩
  · obtain ⟨h32, h64⟩ := lengthsAgree_iff.mp hl
    have h32' := h32.ctxAfter32 i
    have h64' := h64.ctxAfter64 i
    exact ⟨buffersInRange_of_lengthLaw h32' h64', h32', h64'⟩

/-- Settles O51: a step that answers begins with room for its response, and the host adds none. -/
theorem responseQueueStaysInItsDepth : Obligations.ResponseQueueStaysInItsDepth :=
  ⟨fun _ _ => step_queueInDepth, fun _ a h => hostAct_queueInDepth h a, Nat.zero_le _⟩

end Sys2Proof.Proofs
end

section
/-!
SUPPORT. What a command leaves unchanged and what it does not depend on (R23 to R29, R192).
-/

namespace Sys2Proof.Machine

/-! ## Frames -/

section
variable {i : Instr} {s t : State}

theorem exec_ctx32_of_not_writes (h : exec i s = .next t) (hw : ¬ Writes .w32 i) : t.ctx32 = s.ctx32 := by
  obtain ⟨value, rfl⟩ | ⟨what, rfl⟩ := exec_eq_next h
  · exact ctxAfter32_of_not_writes hw
  · rfl

theorem exec_ctx64_of_not_writes (h : exec i s = .next t) (hw : ¬ Writes .w64 i) : t.ctx64 = s.ctx64 := by
  obtain ⟨value, rfl⟩ | ⟨what, rfl⟩ := exec_eq_next h
  · exact ctxAfter64_of_not_writes hw
  · rfl

theorem exec_seed32 (h : exec i s = .next t) (hi : ∀ seed, i ≠ .init32 seed) : t.ctx32.seed = s.ctx32.seed := by
  obtain ⟨value, rfl⟩ | ⟨what, rfl⟩ := exec_eq_next h
  · exact ctxAfter32_seed hi
  · rfl

theorem exec_seed64 (h : exec i s = .next t) (hi : ∀ seed, i ≠ .init64 seed) : t.ctx64.seed = s.ctx64.seed := by
  obtain ⟨value, rfl⟩ | ⟨what, rfl⟩ := exec_eq_next h
  · exact ctxAfter64_seed hi
  · rfl

/-! ## Which commands write nothing of a width -/

theorem not_writes_of_width_ne {W : Width} (h : i.width ≠ W) : ¬ Writes W i := fun hw => h hw.1

theorem not_writes_of_cksum (W : Width) (h : i.operation = .cksum) : ¬ Writes W i := by
  rintro ⟨-, hw⟩
  rw [Instr.writesContext, h] at hw
  cases hw

/-! ## Independence -/

/-- The value of a 32-bit command depends on CTX32 only (R29). -/
theorem commandValue_of_w32 (h : i.width = .w32) (c : Ctx 32) (d d' : Ctx 64) :
    commandValue c d i = commandValue c d' i := by
  cases i with
  | init32 | reset32 | write32 | sum32 | cksum32 | bsize32 | dsize32 => rfl
  | _ => cases h

/-- The value of a 64-bit command depends on CTX64 only (R29). -/
theorem commandValue_of_w64 (h : i.width = .w64) (c c' : Ctx 32) (d : Ctx 64) :
    commandValue c d i = commandValue c' d i := by
  cases i with
  | init64 | reset64 | write64 | sum64 | cksum64 | bsize64 | dsize64 => rfl
  | _ => cases h

/-- The value of `CKSUM` depends on no context (R192). -/
theorem commandValue_of_cksum (h : i.operation = .cksum) (c c' : Ctx 32) (d d' : Ctx 64) :
    commandValue c d i = commandValue c' d' i := by
  cases i with
  | cksum32 | cksum64 => rfl
  | _ => cases h

/-- From two states whose contexts give a command the same value, the outcomes differ by `f` as soon as its two possible
next states do. -/
theorem exec_eq_mapNext {s' : State} {f : State → State}
    (hvalue : commandValue s'.ctx32 s'.ctx64 i = commandValue s.ctx32 s.ctx64 i)
    (hnext : ∀ value, afterCommand i value s' = f (afterCommand i value s))
    (hfault : ∀ what, recordFault s' what = f (recordFault s what)) : exec i s' = mapNext f (exec i s) := by
  rw [exec_eq_conclude, exec_eq_conclude, hvalue]
  cases commandValue s.ctx32 s.ctx64 i with
  | ok value => exact congrArg _ (hnext value)
  | error what => exact congrArg _ (hfault what)

end

end Sys2Proof.Machine
end

section
/-! What commands touch and read: O36, O37, O38, O40. -/

namespace Sys2Proof.Proofs
open Sys2Proof Sys2Proof.Machine

/-- Settles O36: a command's value and effect see only its own context, those of `CKSUM` and of an error response none. -/
theorem commandsTouchOnlyTheirOwnContext : Obligations.CommandsTouchOnlyTheirOwnContext := by
  refine ⟨fun i s c hi => ?_, fun i s c hi => ?_, fun i s c d hi => ?_, fun e s c d => ⟨rfl, rfl, rfl⟩⟩
  · have hw : ¬ Writes .w64 i := not_writes_of_width_ne (by rw [hi]; decide)
    refine ⟨exec_eq_mapNext (commandValue_of_w32 hi _ _ _) (fun value => ?_) (fun _ => rfl),
      fun t h => exec_ctx64_of_not_writes h hw⟩
    simp only [afterCommand, ctxAfter64_of_not_writes hw, respond]
  · have hw : ¬ Writes .w32 i := not_writes_of_width_ne (by rw [hi]; decide)
    refine ⟨exec_eq_mapNext (commandValue_of_w64 hi _ _ _) (fun value => ?_) (fun _ => rfl),
      fun t h => exec_ctx32_of_not_writes h hw⟩
    simp only [afterCommand, ctxAfter32_of_not_writes hw, respond]
  · have hw32 := not_writes_of_cksum .w32 hi
    have hw64 := not_writes_of_cksum .w64 hi
    refine ⟨exec_eq_mapNext (commandValue_of_cksum hi _ _ _ _) (fun value => ?_) (fun _ => rfl),
      fun t h => ⟨exec_ctx32_of_not_writes h hw32, exec_ctx64_of_not_writes h hw64⟩⟩
    simp only [afterCommand, ctxAfter32_of_not_writes hw32, ctxAfter64_of_not_writes hw64, respond]

/-- Settles O37: of what a command can do to a context only `INIT` changes the seed, and the host touches the ports only. -/
theorem onlyInitWritesTheSeed : Obligations.OnlyInitWritesTheSeed := by
  refine ⟨fun i s t h => ⟨exec_seed32 h, exec_seed64 h⟩, fun seed s t h => ?_, fun seed s t h => ?_,
    fun e s => ⟨rfl, rfl⟩, fun s a ha => ?_, fun s => ⟨rfl, rfl⟩⟩
  · cases h; rfl
  · cases h; rfl
  · cases a with
    | send bytes => exact ⟨rfl, rfl⟩
    | take =>
      cases hq : s.rspOut with
      | nil => simp only [hostAct, hostTake_of_nil hq, and_self]
      | cons packet later => simp only [hostAct, hostTake_of_cons hq, and_self]
    | powerOnReset => exact absurd rfl ha

/-- Settles O38: a command either stores its contexts and appends a response or records a fault. -/
theorem onlyWritersChangeAContext : Obligations.OnlyWritersChangeAContext := by
  intro i s t h
  refine ⟨exec_ctx32_of_not_writes h, exec_ctx64_of_not_writes h, ?_⟩
  obtain ⟨value, rfl⟩ | ⟨what, rfl⟩ := exec_eq_next h
  · exact ⟨rfl, [0x00 :: value], rfl⟩
  · exact ⟨rfl, [], (List.append_nil _).symm⟩

/-- Settles O40: a command's value is computed from the contexts, which the ports are no part of. -/
theorem commandsReadNoPortState : Obligations.CommandsReadNoPortState := by
  intro i s cmdIn rspOut
  refine exec_eq_mapNext rfl (fun value => ?_) (fun what => ?_)
  · simp [afterCommand, respond]
  · simp [recordFault]

end Sys2Proof.Proofs
end

section
/-! `WRITE`, and contexts along a sequence of commands: O20, O21, O43, O45, O46, O47. -/

namespace Sys2Proof.Machine

/-- `WRITE32` on a buffer in range (R160). -/
theorem exec_write32 {s : State} (h : s.ctx32.buf.length < 16) (d : List Byte) :
    exec (.write32 d) s = .next (afterCommand (.write32 d) (beBytes 8 (lenOf d)) s) := by
  rw [exec_eq_conclude, commandValue, checkBuf_ok h]
  rfl

/-- `WRITE64` on a buffer in range (R161). -/
theorem exec_write64 {s : State} (h : s.ctx64.buf.length < 32) (d : List Byte) :
    exec (.write64 d) s = .next (afterCommand (.write64 d) (beBytes 8 (lenOf d)) s) := by
  rw [exec_eq_conclude, commandValue, checkBuf_ok h]
  rfl

theorem exec_write32_ctx32 {s t : State} {d : List Byte} (h : s.ctx32.buf.length < 16)
    (hx : exec (.write32 d) s = .next t) : t.ctx32 = written .w32 (mixChunk round32) s.ctx32 d := by
  rw [exec_write32 h] at hx
  cases hx
  rfl

theorem exec_write64_ctx64 {s t : State} {d : List Byte} (h : s.ctx64.buf.length < 32)
    (hx : exec (.write64 d) s = .next t) : t.ctx64 = written .w64 (mixChunk round64) s.ctx64 d := by
  rw [exec_write64 h] at hx
  cases hx
  rfl

/-- Any commands, from contexts with histories, leave what the extended histories make of the contexts. -/
theorem streams_execAll {commands : List Instr} {s t : State} {S32 S64 : List Byte} (h32 : Streams32 s.ctx32 S32)
    (h64 : Streams64 s.ctx64 S64) (h : execAll commands s = .next t) :
    Streams32 t.ctx32 (historyAfter .w32 S32 commands) ∧ Streams64 t.ctx64 (historyAfter .w64 S64 commands) := by
  induction commands generalizing s S32 S64 with
  | nil => cases h; exact ⟨h32, h64⟩
  | cons i later ih =>
    obtain ⟨value, -, hx⟩ := exec_of_buffersInRange (buffersInRange_of_streams h32 h64) i
    rw [execAll, hx] at h
    exact ih (streams32_ctxAfter32 h32 i) (streams64_ctxAfter64 h64 i) h

/-- The power-on contexts are new contexts of seed 0 (R36). -/
theorem reset_ctx32 : State.reset.ctx32 = newCtx init32 0 := by decide

theorem reset_ctx64 : State.reset.ctx64 = newCtx init64 0 := by decide

theorem streams32_reset : Streams32 State.reset.ctx32 [] :=
  streams32_iff_follows.mpr (reset_ctx32 ▸ follows_newCtx 0)

theorem streams64_reset : Streams64 State.reset.ctx64 [] :=
  streams64_iff_follows.mpr (reset_ctx64 ▸ follows_newCtx 0)

end Sys2Proof.Machine

namespace Sys2Proof.Proofs
open Sys2Proof Sys2Proof.Machine

/-- Settles O20: from a buffer in range `WRITE32` leaves `written`, whose lanes are those `absorb32` answers. -/
theorem writeAbsorbsTheCompleteBlocks32 : Obligations.WriteAbsorbsTheCompleteBlocks32 := by
  refine ⟨fun d => ⟨rfl, by simp [encode]; omega⟩, fun s d h => ?_⟩
  rw [← List.length_append]
  exact ⟨_, absorb32_ok _ _, exec_write32 h d⟩

/-- Settles O21: from a buffer in range `WRITE64` leaves `written`, whose lanes are those `absorb64` answers. -/
theorem writeAbsorbsTheCompleteBlocks64 : Obligations.WriteAbsorbsTheCompleteBlocks64 := by
  refine ⟨fun d => ⟨rfl, by simp [encode]; omega⟩, fun s d h => ?_⟩
  rw [← List.length_append]
  exact ⟨_, absorb64_ok _ _, exec_write64 h d⟩

/-- Settles O43: mixing that stops after the first payload goes on with the second where it stopped. -/
theorem twoWritesAreOneWrite : Obligations.TwoWritesAreOneWrite := by
  refine ⟨fun s t u w a b h hst htu hsw => ?_, fun s t u w a b h hst htu hsw => ?_⟩
  · have ht := exec_write32_ctx32 h hst
    have hrange : t.ctx32.buf.length < 16 := ht ▸ afterBlocks_length_lt .w32 _
    rw [exec_write32_ctx32 hrange htu, ht, exec_write32_ctx32 h hsw, written_written]
  · have ht := exec_write64_ctx64 h hst
    have hrange : t.ctx64.buf.length < 32 := ht ▸ afterBlocks_length_lt .w64 _
    rw [exec_write64_ctx64 hrange htu, ht, exec_write64_ctx64 h hsw, written_written]

/-- Settles O46, by induction on the commands; the ranges and lengths follow from the histories they end with. -/
theorem contextsFollowTheirHistory : Obligations.ContextsFollowTheirHistory := by
  intro commands s t S32 S64 h32 h64 h
  obtain ⟨h32', h64'⟩ := streams_execAll h32 h64 h
  exact ⟨h32', h64', buffersInRange_of_streams h32' h64', lengthLaw_of_streams32 h32', lengthLaw_of_streams64 h64'⟩

/-- Settles O45: the fields as `State.reset` has them, and the lanes as those of new contexts of seed 0. -/
theorem resetLeavesTheStatedValues : Obligations.ResetLeavesTheStatedValues :=
  ⟨rfl, congrArg Ctx.v reset_ctx32, congrArg Ctx.v reset_ctx64⟩

/-- Settles O47: the power-on contexts are new contexts of seed 0. -/
theorem resetStateIsAccounted : Obligations.ResetStateIsAccounted := ⟨streams32_reset, streams64_reset⟩

end Sys2Proof.Proofs
end

section
/-!
SUPPORT. Runs from power-on: what the engine has consumed is whole packets, and the contexts are what those packets make of
them (R27, R28, R70).
-/

namespace Sys2Proof.Machine

/-! ## Whole packets -/

/-- The bytes end at a packet boundary: what follows them is parsed by itself (R70). -/
def WholePackets (bytes : List Byte) : Prop :=
  ∀ more, packetsOf (bytes ++ more) = packetsOf bytes ++ packetsOf more

/-- The bytes are exactly one packet, whatever follows them. -/
def OnePacket (bytes : List Byte) (packet : Except CmdError Instr) : Prop :=
  ∀ more, packetsOf (bytes ++ more) = packet :: packetsOf more

theorem wholePackets_nil : WholePackets [] := fun _ => rfl

theorem OnePacket.packetsOf_eq {bytes : List Byte} {packet : Except CmdError Instr} (h : OnePacket bytes packet) :
    packetsOf bytes = [packet] := by
  rw [← List.append_nil bytes, h []]
  rfl

theorem WholePackets.packetsOf_append {a b : List Byte} {packet : Except CmdError Instr} (ha : WholePackets a)
    (hb : OnePacket b packet) : packetsOf (a ++ b) = packetsOf a ++ [packet] := by
  rw [ha, hb.packetsOf_eq]

theorem WholePackets.append {a b : List Byte} {packet : Except CmdError Instr} (ha : WholePackets a)
    (hb : OnePacket b packet) : WholePackets (a ++ b) := by
  intro more
  rw [List.append_assoc, ha, hb, ha.packetsOf_append hb, List.append_assoc, List.singleton_append]

theorem onePacket_encode {i : Instr} (h : i.wellFormed = true) : OnePacket (encode i) (.ok i) :=
  fun more => packetsOf_command (decode_encode_append h more)

theorem onePacket_malformed {b : Byte} {e : CmdError} (h : decodeHeader b = .error e) : OnePacket [b] (.error e) :=
  fun _ => packetsOf_malformed (decode_eq_malformed.mpr ⟨b, rfl, h⟩)

/-- One more packet extends a stream's history by it. -/
theorem historyOf_append {bytes front : List Byte} {packet : Except CmdError Instr} (W : Width)
    (ha : WholePackets bytes) (hb : OnePacket front packet) :
    historyOf W (bytes ++ front) = historyPacket W (historyOf W bytes) packet := by
  rw [historyOf, ha.packetsOf_append hb, List.foldl_append]
  rfl

/-- A step takes one packet from the front of the command port, and leaves the contexts what their histories with that
packet make of them. -/
theorem step_takes_onePacket {s t : State} {S32 S64 : List Byte} (h32 : Streams32 s.ctx32 S32)
    (h64 : Streams64 s.ctx64 S64) (h : step s = .next t) :
    ∃ front packet, s.cmdIn = front ++ t.cmdIn ∧ OnePacket front packet ∧ t.fault = none ∧
      Streams32 t.ctx32 (historyPacket .w32 S32 packet) ∧ Streams64 t.ctx64 (historyPacket .w64 S64 packet) := by
  obtain ⟨hr, e, rest, hd, rfl⟩ | ⟨hr, i, rest, value, hd, rfl⟩ :=
    step_of_buffersInRange (buffersInRange_of_streams h32 h64) h
  · obtain ⟨b, hc, he⟩ := decode_eq_malformed.mp hd
    exact ⟨[b], .error e, by simp [hc], onePacket_malformed he, hr.1, h32, h64⟩
  · obtain ⟨hw, hc⟩ := decode_eq_command.mp hd
    exact ⟨encode i, .ok i, hc, onePacket_encode hw, hr.1, streams32_ctxAfter32 h32 i, streams64_ctxAfter64 h64 i⟩

/-! ## Runs -/

/-- What every run from power-on keeps of the system: no fault, contexts that are what the packets consumed make of them,
a queue in its depth, and consumed bytes that end at a packet boundary. -/
structure System.Sound (y : System) : Prop where
  fault : y.core.fault = none
  streams32 : Streams32 y.core.ctx32 (historyOf .w32 y.consumed)
  streams64 : Streams64 y.core.ctx64 (historyOf .w64 y.consumed)
  depth : y.core.QueueInDepth
  boundary : WholePackets y.consumed

theorem sound_start : System.start.Sound where
  fault := rfl
  streams32 := streams32_reset
  streams64 := streams64_reset
  depth := Nat.zero_le _
  boundary := wholePackets_nil

/-- A step of the engine has consumed what it took from the front of the command port (R21). -/
theorem engineStepped_consumed_of_append {y : System} {t : State} {front : List Byte}
    (h : y.core.cmdIn = front ++ t.cmdIn) : (engineStepped y t).consumed = y.consumed ++ front := by
  rw [engineStepped_consumed, h, List.length_append, Nat.add_sub_cancel, List.take_left]

theorem System.Sound.engineStepped {y : System} {t : State} (hy : y.Sound) (h : step y.core = .next t) :
    (engineStepped y t).Sound := by
  obtain ⟨front, packet, hc, hp, hf, h32, h64⟩ := step_takes_onePacket hy.streams32 hy.streams64 h
  have hconsumed := engineStepped_consumed_of_append hc
  exact
    { fault := hf
      streams32 := by rwa [hconsumed, historyOf_append _ hy.boundary hp]
      streams64 := by rwa [hconsumed, historyOf_append _ hy.boundary hp]
      depth := step_queueInDepth hy.depth h
      boundary := hconsumed ▸ hy.boundary.append hp }

theorem System.Sound.systemStep {y : System} (hy : y.Sound) (e : Event) : (systemStep y e).Sound := by
  have hdepth : ∀ a, (Machine.systemStep y (.host a)).core.QueueInDepth := fun a => by
    rw [systemStep_host_core]
    exact hostAct_queueInDepth hy.depth a
  cases e with
  | engine =>
    rw [Machine.systemStep]
    cases h : step y.core with
    | next t => exact hy.engineStepped h
    | fault why => exact hy
    | refused why => exact hy
  | host a =>
    cases a with
    | send bytes => exact { hy with }
    | take =>
      have hq := hdepth .take
      rw [Machine.systemStep] at hq ⊢
      cases hr : y.core.rspOut with
      | nil => rwa [hostTake_of_nil hr]
      | cons packet later =>
        rw [hostTake_of_cons hr] at hq ⊢
        exact { hy with depth := hq }
    | powerOnReset =>
      exact
        { fault := hy.fault
          streams32 := streams32_reset
          streams64 := streams64_reset
          depth := Nat.zero_le _
          boundary := wholePackets_nil }

/-- Every run from power-on is sound. -/
theorem sound_systemRun_start (events : List Event) : (systemRun System.start events).Sound :=
  List.foldlRecOn events systemStep sound_start fun _ hy e _ => hy.systemStep e

end Sys2Proof.Machine

namespace Sys2Proof.Proofs
open Sys2Proof Sys2Proof.Machine

/-- Settles O52, by the invariant that every event keeps. -/
theorem noRunFromPowerOnFaults : Obligations.NoRunFromPowerOnFaults := by
  intro events
  obtain ⟨hfault, h32, h64, hdepth, -⟩ := sound_systemRun_start events
  exact ⟨hfault, h32, h64, hdepth⟩

end Sys2Proof.Proofs
end

section
/-! SUPPORT. How a run on a stream stands, case by case (R249). -/

namespace Sys2Proof.Machine

variable {P : List Byte} {y : System}

theorem runStatus_of_fault {what : InvariantFault} (h : y.core.fault = some what) : runStatus P y = .faulted what := by
  simp only [runStatus, h]

theorem runStatus_of_broken {what : InvariantFault} (hf : y.core.fault = none)
    (hb : brokenContext y.core = some what) : runStatus P y = .faulted what := by
  simp only [runStatus, hf, hb]

/-- Short of the end of the stream the status is that of the engine's fetch: held where it is stopped. -/
theorem runStatus_of_stopped {why : Fault} (hf : y.core.fault = none) (hb : y.core.BuffersInRange)
    (hdone : ¬ streamDone P y = true) (h : fetch y.core = .stopped why) : runStatus P y = .held why := by
  simp only [runStatus, hf, brokenContext_eq_none.mpr hb, hdone, h, if_false, Bool.false_eq_true]

/-- A run is finished exactly when it is not faulted and the stream is done. -/
theorem runStatus_eq_finished :
    runStatus P y = .finished ↔ y.core.fault = none ∧ y.core.BuffersInRange ∧ streamDone P y = true := by
  cases hf : y.core.fault with
  | some what => simp [runStatus_of_fault hf]
  | none =>
    rw [← brokenContext_eq_none]
    cases hb : brokenContext y.core with
    | some what => simp [runStatus_of_broken hf hb]
    | none =>
      simp only [runStatus, hf, hb]
      cases streamDone P y with
      | true => simp
      | false => cases fetch y.core <;> simp

/-- A running run has a packet to take, and every packet has a step. -/
theorem exists_step_of_running (h : runStatus P y = .running) : ∃ t, step y.core = .next t := by
  cases hx : fetch y.core with
  | stopped why =>
    simp only [runStatus, hx] at h
    repeat' split at h
    all_goals cases h
  | broken what => exact ⟨_, by rw [step, hx]⟩
  | malformed e => exact ⟨_, by rw [step, hx]⟩
  | command i s =>
    rw [step, hx]
    exact exists_exec_eq_next i s

end Sys2Proof.Machine

namespace Sys2Proof.Proofs
open Sys2Proof Sys2Proof.Machine

/-- Settles O56, clause by clause from what `runStatus` is when finished, stopped or faulted. -/
theorem runStatusFollowsTheDefinition : Obligations.RunStatusFollowsTheDefinition := by
  intro P y
  refine ⟨?finished, ?result, ?incomplete, ?full, fun _ => runStatus_of_fault, fun _ => runStatus_of_broken,
    exists_step_of_running, ?reset⟩
  case finished => rw [runStatus_eq_finished, streamDone_iff]
  case result =>
    intro r
    rw [runResult]
    cases runStatus P y <;> simp [eq_comm]
  case incomplete =>
    intro hr hd hshort
    refine runStatus_of_stopped hr.1 hr.2.1 (fun hdone => ?_) (fetch_of_incomplete hr hd)
    obtain ⟨hconsumed, hempty, -⟩ := streamDone_iff.mp hdone
    exact hshort.elim (· hempty) (· hconsumed)
  case full =>
    intro hf hb hlen hpending
    refine runStatus_of_stopped hf hb (fun hdone => ?_) (fetch_of_queueFull hf hb (queueFull_of_length_eq hlen))
    exact hpending (streamDone_iff.mp hdone).2.1
  case reset =>
    intro hP hfin
    obtain ⟨-, -, hdone⟩ := runStatus_eq_finished.mp hfin
    exact hP (streamDone_iff.mp hdone).1.symm

end Sys2Proof.Proofs
end

section
/-!
SUPPORT. The byte reader and the byte order of response values: parts of a little-endian word, whose first bytes are its
remainder and whose later bytes its quotient (R52, R55); and the bytes of a word with one more byte below it (R57).
-/

namespace Sys2Proof

/-! ## Parts of a word -/

theorem leNat_drop (k : Nat) (bs : List Byte) : leNat (bs.drop k) = leNat bs / 256 ^ k := by
  induction k generalizing bs with
  | zero => simp
  | succ k ih =>
    cases bs with
    | nil => simp [leNat]
    | cons b bs =>
      have hb := b.isLt
      rw [List.drop_succ_cons, ih, leNat, Nat.pow_succ', ← Nat.div_div_eq_div_mul]
      congr 1
      omega

theorem leNat_take (k : Nat) (bs : List Byte) : leNat (bs.take k) = leNat bs % 256 ^ k := by
  induction k generalizing bs with
  | zero => simp [leNat, Nat.mod_one]
  | succ k ih =>
    cases bs with
    | nil => simp [leNat]
    | cons b bs =>
      have hb := b.isLt
      rw [List.take_succ_cons, leNat, ih, leNat, Nat.pow_succ', Nat.mod_mul]
      congr 1
      · omega
      · congr 2
        omega

/-- The word of `n` bytes at place `k` of a longer word's bytes is that word shifted down by those places (R55). -/
theorem leWord_take_drop {m : Nat} (n k : Nat) {bs : List Byte} (hbs : bs.length = m) :
    leWord (8 * n) ((bs.drop k).take n) = (leWord (8 * m) bs >>> (8 * k)).setWidth (8 * n) := by
  apply BitVec.eq_of_toNat_eq
  rw [leWord_eq_ofNat, BitVec.toNat_ofNat, leNat_take, leNat_drop, BitVec.toNat_setWidth, BitVec.toNat_ushiftRight,
    leWord_toNat bs hbs, Nat.shiftRight_eq_div_pow, Nat.pow_mul, Nat.pow_mul]
  exact Nat.mod_mod _ _

/-- The first byte of a word's bytes is its low byte (R52, R55). -/
theorem getElem?_zero_eq_setWidth_leWord {n : Nat} {bs : List Byte} (h : bs.length = n + 1) :
    bs[0]? = some ((leWord (8 * (n + 1)) bs).setWidth 8) := by
  conv_lhs => rw [← leBytes_leWord (n + 1) bs h, leBytes]
  rfl

/-! ## Words with one more byte below them -/

/-- The bytes of a value do not depend on the width it is held in. -/
theorem leBytes_eq_of_toNat_eq {w w' : Nat} {v : BitVec w} {v' : BitVec w'} (n : Nat) (h : v.toNat = v'.toNat) :
    leBytes n v = leBytes n v' :=
  leNat_inj (by simp) (by rw [leNat_leBytes, leNat_leBytes, h])

/-- A byte below a word is its first little-endian byte (R12). -/
theorem leBytes_append_byte {w : Nat} (n : Nat) (hi : BitVec w) (b : Byte) :
    leBytes (n + 1) (hi ++ b) = b :: leBytes n hi := by
  rw [leBytes]
  have hb := b.isLt
  have hdiv : ((hi ++ b) >>> 8).toNat = hi.toNat := by
    rw [BitVec.toNat_ushiftRight, BitVec.toNat_append, ← Nat.shiftLeft_add_eq_or_of_lt hb, Nat.shiftRight_eq_div_pow,
      Nat.shiftLeft_eq]
    omega
  rw [BitVec.setWidth_append_eq_right, leBytes_eq_of_toNat_eq n hdiv]

end Sys2Proof

namespace Sys2Proof.Machine

/-- A byte below a word leaves last of its big-endian bytes (R57). -/
theorem beBytes_append_byte {w : Nat} (n : Nat) (hi : BitVec w) (b : Byte) :
    beBytes (n + 1) (hi ++ b) = beBytes n hi ++ [b] := by
  rw [beBytes, leBytes_append_byte, List.reverse_cons, beBytes]

@[simp] theorem beBytes_one (b : Byte) : beBytes 1 b = [b] := by
  simp [beBytes, leBytes]

/-- A read of exactly the bytes between others is their word (R52, R54). -/
theorem memRead_append {w : Nat} (pre word post : List Byte) (h : word.length = w / 8) :
    memRead w (pre ++ word ++ post) pre.length = .ok (leWord w word) := by
  rw [memRead_ok (by simp [h]), List.append_assoc, List.drop_left, ← h, List.take_left]

/-- A read that leaves the source raises the reader's invariant fault (R52). -/
theorem memRead_out_of_range {w : Nat} {src : List Byte} {i : Nat} (h : src.length < i + w / 8) :
    memRead w src i = .error .readerOutOfRange := if_neg (Nat.not_le.mpr h)

/-- A 4-byte read inside an 8-byte window is the window's word shifted down to its place (R55). -/
theorem memRead_32_of_window {src : List Byte} {i k : Nat} (h : i + 8 ≤ src.length) (hk : k ≤ 4) :
    memRead 32 src (i + k) = .ok ((leWord 64 ((src.drop i).take 8) >>> (8 * k)).setWidth 32) := by
  have hlen : ((src.drop i).take 8).length = 8 := by rw [List.length_take, List.length_drop]; omega
  rw [memRead_window (n := 8) (by omega) h]
  exact congrArg _ (leWord_take_drop 4 k hlen)

/-- A 64-bit word is its two halves. -/
theorem eq_low_add_high (x : U64) : x = (x.setWidth 32).setWidth 64 + ((x >>> 32).setWidth 32).setWidth 64 <<< 32 := by
  bv_omega

end Sys2Proof.Machine

namespace Sys2Proof.Proofs
open Sys2Proof Sys2Proof.Machine

/-- Settles O25: each byte below a word is one more big-endian byte at its end. -/
theorem responseValuesAreBigEndian : Obligations.ResponseValuesAreBigEndian := by
  constructor
  · intro b0 b1 b2 b3
    simp [beBytes_append_byte]
  · intro b0 b1 b2 b3 b4 b5 b6 b7
    simp [beBytes_append_byte]

/-- Settles O27: a read in range is the word of its bytes, whose shifts by one byte add up to each byte's place. -/
theorem byteReaderIsLittleEndian : Obligations.ByteReaderIsLittleEndian := by
  refine ⟨fun pre post b0 b1 b2 b3 => ?four, fun pre post b0 b1 b2 b3 b4 b5 b6 b7 => ?eight, fun pre post b => ?one,
    fun _ _ h => memRead_out_of_range h, fun _ _ h => memRead_out_of_range h⟩
  case one => rw [memRead_append pre [b] post rfl]; simp [leWord]
  all_goals
    rw [memRead_append _ _ _ rfl]
    simp [leWord, BitVec.shiftLeft_add_distrib, ← BitVec.shiftLeft_add, BitVec.add_assoc]

/-- Settles O28: every narrow read is a window of the wide word. -/
theorem wideAndNarrowReadsAgree : Obligations.WideAndNarrowReadsAgree := by
  intro src i h
  have hlen : ((src.drop i).take 4).length = 4 := by rw [List.length_take, List.length_drop]; omega
  have hlow := memRead_32_of_window h (Nat.zero_le 4)
  have hfirst := getElem?_zero_eq_setWidth_leWord hlen
  rw [Nat.add_zero, memRead_ok (by omega)] at hlow
  refine ⟨_, _, _, memRead_ok h, memRead_ok (by omega), memRead_32_of_window h (Nat.le_refl 4), ?halves, ?byte,
    fun k hk => memRead_32_of_window h hk⟩
  case halves =>
    rw [Except.ok.inj hlow]
    exact eq_low_add_high _
  case byte => simpa using hfirst

end Sys2Proof.Proofs
end

section
/-!
SUPPORT. What one packet makes of the final state of a run, and what a run without a power-on reset comes to once every byte
sent to it is consumed: neither depends on how the host's bytes and turns interleave with the engine's (R63, R246, R249).
-/

namespace Sys2Proof.Machine

/-! ## Buffers in range -/

/-- A command leaves the buffer of CTX32 in range, R27 (a). -/
theorem ctxAfter32_buf_lt {c : Ctx 32} (h : c.buf.length < blockSize .w32) (i : Instr) :
    (ctxAfter32 c i).buf.length < blockSize .w32 := by
  obtain ⟨seed, -, hc⟩ | ⟨-, hc⟩ | ⟨d, -, hc⟩ | ⟨-, hc⟩ := ctxAfter32_cases c i <;> rw [hc]
  · exact blockSize_pos .w32
  · exact blockSize_pos .w32
  · exact afterBlocks_length_lt .w32 _
  · exact h

/-- A command leaves the buffer of CTX64 in range, R27 (a). -/
theorem ctxAfter64_buf_lt {c : Ctx 64} (h : c.buf.length < blockSize .w64) (i : Instr) :
    (ctxAfter64 c i).buf.length < blockSize .w64 := by
  obtain ⟨seed, -, hc⟩ | ⟨-, hc⟩ | ⟨d, -, hc⟩ | ⟨-, hc⟩ := ctxAfter64_cases c i <;> rw [hc]
  · exact blockSize_pos .w64
  · exact blockSize_pos .w64
  · exact afterBlocks_length_lt .w64 _
  · exact h

theorem afterCommand_buffersInRange {s : State} (h : s.BuffersInRange) (i : Instr) (value : List Byte) :
    (afterCommand i value s).BuffersInRange := ⟨ctxAfter32_buf_lt h.1 i, ctxAfter64_buf_lt h.2 i⟩

/-- A step keeps both buffers in range. -/
theorem step_buffersInRange {s t : State} (hb : s.BuffersInRange) (h : step s = .next t) : t.BuffersInRange := by
  obtain ⟨-, e, rest, -, rfl⟩ | ⟨-, i, rest, value, -, rfl⟩ := step_of_buffersInRange hb h
  · exact hb
  · exact afterCommand_buffersInRange (s := { s with cmdIn := rest }) hb i value

/-! ## What a packet makes of the final state -/

/-- The contexts and responses as they stand (R249). -/
def System.result (y : System) : RunResult where
  ctx32 := y.core.ctx32
  ctx64 := y.core.ctx64
  responses := y.responses

theorem runResult_of_finished {P : List Byte} {y : System} (h : runStatus P y = .finished) :
    runResult P y = some y.result := by
  rw [runResult, h]
  rfl

/-- The contexts and responses after one more packet: a malformed header is answered by its error, a command by its value;
a command that finds an invariant fault does neither (R84 to R86, R214). -/
def RunResult.after (r : RunResult) : Except CmdError Instr → RunResult
  | .error e => { r with responses := r.responses ++ [[statusByte (.error e)]] }
  | .ok i =>
    match commandValue r.ctx32 r.ctx64 i with
    | .ok value =>
      { ctx32 := ctxAfter32 r.ctx32 i, ctx64 := ctxAfter64 r.ctx64 i, responses := r.responses ++ [0x00 :: value] }
    | .error _ => r

theorem engineStepped_raiseCmdError_result (y : System) (e : CmdError) :
    (engineStepped y (raiseCmdError y.core e)).result = y.result.after (.error e) := by
  simp [System.result, System.responses, RunResult.after]

theorem engineStepped_afterCommand_result {y : System} {i : Instr} {value rest : List Byte}
    (h : commandValue y.core.ctx32 y.core.ctx64 i = .ok value) :
    (engineStepped y (afterCommand i value { y.core with cmdIn := rest })).result = y.result.after (.ok i) := by
  simp [System.result, System.responses, RunResult.after, h]

/-- A command on buffers in range answers its value. -/
theorem exec_eq_next_of_buffersInRange {s t : State} {i : Instr} (hb : s.BuffersInRange) (h : exec i s = .next t) :
    ∃ value, commandValue s.ctx32 s.ctx64 i = .ok value ∧ t = afterCommand i value s := by
  obtain ⟨value, hv, -⟩ := commandValue_ok hb i
  rw [exec_eq_conclude, hv] at h
  exact ⟨value, hv, by cases h; rfl⟩

/-- A step takes one packet from the front of the command port and makes of the contexts and responses what that packet
does, whatever follows it on the port and wherever the responses are. -/
theorem engineStepped_result {y : System} {t : State} (hb : y.core.BuffersInRange) (h : step y.core = .next t) :
    ∃ front packet, y.core.cmdIn = front ++ t.cmdIn ∧ OnePacket front packet ∧
      (engineStepped y t).result = y.result.after packet := by
  obtain ⟨what, -, hbroken, -⟩ | ⟨b, rest, e, -, hc, he, rfl⟩ | ⟨i, rest, -, hd, hx⟩ := step_cases h
  · rw [brokenContext_eq_none.mpr hb] at hbroken
    cases hbroken
  · exact ⟨[b], .error e, by simp [hc], onePacket_malformed he, engineStepped_raiseCmdError_result y e⟩
  · obtain ⟨value, hv, rfl⟩ := exec_eq_next_of_buffersInRange (s := { y.core with cmdIn := rest }) hb hx
    obtain ⟨hw, hc⟩ := decode_eq_command.mp hd
    exact ⟨encode i, .ok i, hc, onePacket_encode hw, engineStepped_afterCommand_result hv⟩

/-- Taking a response changes neither the final state nor what waits or has been consumed (R247, R249). -/
theorem systemStep_take_frame (y : System) :
    (systemStep y (.host .take)).result = y.result ∧ (systemStep y (.host .take)).core.cmdIn = y.core.cmdIn ∧
      (systemStep y (.host .take)).consumed = y.consumed := by
  rw [System.result, systemStep_take_responses, systemStep]
  cases hq : y.core.rspOut with
  | nil =>
    rw [hostTake_of_nil hq]
    exact ⟨rfl, rfl, rfl⟩
  | cons packet later =>
    rw [hostTake_of_cons hq]
    exact ⟨rfl, rfl, rfl⟩

/-! ## Runs without a power-on reset -/

/-- What the contexts and responses come to once the engine has taken every packet of the bytes that wait on the command port
and of those still to be sent. -/
def System.drained (y : System) (more : List Byte) : RunResult :=
  (packetsOf (y.core.cmdIn ++ more)).foldl RunResult.after y.result

/-- With nothing waiting and nothing to be sent, that is what they are. -/
theorem drained_nil {y : System} (h : y.core.cmdIn = []) : y.drained [] = y.result := by
  rw [System.drained, h]
  rfl

/-- A turn of the engine takes the first packet of those left and changes nothing of what they come to. -/
theorem drained_engine {y : System} (hb : y.core.BuffersInRange) (more : List Byte) :
    (systemStep y .engine).drained more = y.drained more := by
  rw [systemStep]
  cases h : step y.core with
  | fault why => rfl
  | refused why => rfl
  | next t =>
    obtain ⟨front, packet, hc, hp, hr⟩ := engineStepped_result hb h
    show (packetsOf (t.cmdIn ++ more)).foldl _ (engineStepped y t).result = _
    rw [System.drained, hc, List.append_assoc, hp, List.foldl_cons, hr]

/-- Bytes that are sent are those that wait (R246, R247). -/
theorem drained_send (y : System) (bytes more : List Byte) :
    (systemStep y (.host (.send bytes))).drained more = y.drained (bytes ++ more) := by
  show (packetsOf (y.core.cmdIn ++ bytes ++ more)).foldl _ y.result = _
  rw [List.append_assoc, System.drained]

/-- A response that the host takes is still one of the run's. -/
theorem drained_take (y : System) (more : List Byte) : (systemStep y (.host .take)).drained more = y.drained more := by
  obtain ⟨hresult, hcmdIn, -⟩ := systemStep_take_frame y
  rw [System.drained, hresult, hcmdIn, System.drained]

/-- Neither agent takes a buffer out of range. -/
theorem systemStep_buffersInRange {y : System} (hb : y.core.BuffersInRange) (e : Event) :
    (systemStep y e).core.BuffersInRange := by
  cases e with
  | engine =>
    rw [systemStep]
    cases h : step y.core with
    | next t => exact step_buffersInRange hb h
    | fault why => exact hb
    | refused why => exact hb
  | host a =>
    rw [systemStep_host_core]
    cases a with
    | send bytes => exact hb
    | take =>
      cases hq : y.core.rspOut with
      | nil => simpa only [hostAct, hostTake_of_nil hq] using hb
      | cons packet later => simpa only [hostAct, hostTake_of_cons hq] using hb
    | powerOnReset => exact (by decide : State.reset.BuffersInRange)

/-- A run without a power-on reset comes to what the bytes waiting at its beginning and the bytes sent in it come to, in
whatever order its events are. -/
theorem drained_systemRun {y : System} {events : List Event} (hb : y.core.BuffersInRange) (hfree : ResetFree events) :
    (systemRun y events).drained [] = y.drained (sentBytes events) := by
  induction events generalizing y with
  | nil => rfl
  | cons e later ih =>
    obtain ⟨he, hlater⟩ := not_or.mp (mt List.mem_cons.mpr hfree)
    have hrun := ih (systemStep_buffersInRange hb e) hlater
    rw [systemRun, List.foldl_cons, ← systemRun, hrun]
    cases e with
    | engine => exact drained_engine hb _
    | host a =>
      cases a with
      | send bytes => exact drained_send y bytes _
      | take => exact drained_take y _
      | powerOnReset => exact absurd rfl he

/-- What such a run has come to when every byte is consumed. -/
theorem systemRun_result {y : System} {events : List Event} (hb : y.core.BuffersInRange) (hfree : ResetFree events)
    (hempty : (systemRun y events).core.cmdIn = []) : (systemRun y events).result = y.drained (sentBytes events) := by
  rw [← drained_nil hempty, drained_systemRun hb hfree]

/-! ## Runs from power-on -/

/-- The contexts and responses that the packets of a stream make of the power-on state. -/
def resultOf (stream : List Byte) : RunResult := (packetsOf stream).foldl RunResult.after System.start.result

theorem resultOf_append {a b : List Byte} {packet : Except CmdError Instr} (ha : WholePackets a)
    (hb : OnePacket b packet) : resultOf (a ++ b) = (resultOf a).after packet := by
  rw [resultOf, ha.packetsOf_append hb, List.foldl_append]
  rfl

theorem System.Sound.buffersInRange {y : System} (hy : y.Sound) : y.core.BuffersInRange :=
  buffersInRange_of_streams hy.streams32 hy.streams64

/-- Every event keeps the contexts and responses what the packets consumed since power-on make of them; a power-on reset
begins that record anew. -/
theorem systemStep_keeps_resultOf {y : System} (hy : y.Sound) (h : y.result = resultOf y.consumed) (e : Event) :
    (systemStep y e).result = resultOf (systemStep y e).consumed := by
  cases e with
  | engine =>
    rw [systemStep]
    cases hx : step y.core with
    | fault why => exact h
    | refused why => exact h
    | next t =>
      obtain ⟨front, packet, hc, hp, hr⟩ := engineStepped_result hy.buffersInRange hx
      show (engineStepped y t).result = resultOf (engineStepped y t).consumed
      rw [hr, h, engineStepped_consumed_of_append hc, resultOf_append hy.boundary hp]
  | host a =>
    cases a with
    | send bytes => exact h
    | take =>
      obtain ⟨hresult, -, hconsumed⟩ := systemStep_take_frame y
      rw [hresult, hconsumed, h]
    | powerOnReset => rfl

/-- In every run from power-on the contexts and responses are those of the packets consumed. -/
theorem systemRun_start_result (events : List Event) :
    (systemRun System.start events).result = resultOf (systemRun System.start events).consumed := by
  refine (List.foldlRecOn (motive := fun y => y.Sound ∧ y.result = resultOf y.consumed) events systemStep
    ⟨sound_start, rfl⟩ ?_).2
  rintro y ⟨hsound, hresult⟩ e -
  exact ⟨hsound.systemStep e, systemStep_keeps_resultOf hsound hresult e⟩

end Sys2Proof.Machine

namespace Sys2Proof.Proofs
open Sys2Proof Sys2Proof.Machine

/-- Settles O9: the fetch finds the command and leaves it to `exec`. -/
theorem stepRunsTheDecodedCommand : Obligations.StepRunsTheDecodedCommand := by
  intro s i rest hr hd
  rw [step, step_command hr hd]

/-- Settles O53: once every byte is consumed, a run is what the bytes sent in it make of the system it began with. -/
theorem hostTimingChangesNoResult : Obligations.HostTimingChangesNoResult := by
  intro y events₁ events₂ _ hb hfree₁ hfree₂ hsent hempty₁ hempty₂
  have hresult : (systemRun y events₁).result = (systemRun y events₂).result := by
    rw [systemRun_result hb hfree₁ hempty₁, systemRun_result hb hfree₂ hempty₂, hsent]
  exact ⟨congrArg RunResult.responses hresult, congrArg RunResult.ctx32 hresult, congrArg RunResult.ctx64 hresult⟩

/-- Settles O58: a run from power-on is at each point what the packets it has consumed make of the power-on state. -/
theorem finishedRunsAgree : Obligations.FinishedRunsAgree := by
  have hresult : ∀ {P events}, runStatus P (systemRun System.start events) = .finished →
      runResult P (systemRun System.start events) = some (resultOf P) := by
    intro P events hfin
    obtain ⟨-, -, hdone⟩ := runStatus_eq_finished.mp hfin
    rw [runResult_of_finished hfin, systemRun_start_result, (streamDone_iff.mp hdone).1]
  intro P events₁ events₂ hfin₁ hfin₂
  rw [hresult hfin₁, hresult hfin₂]

end Sys2Proof.Proofs
end

section
/-!
SUPPORT. When the parser has only part of a packet: short of an operand field, of the `LEN` field or of the payload it counts
(R79, R80); and what is whole stays so whatever bytes follow (R78, R245).
-/

namespace Sys2Proof

/-! ## Operand fields that are not all there -/

/-- The `LEN` field behind the bytes of other fields is the one that the bytes after those begin with (R77). -/
theorem lenField_drop (packet : List Byte) (off : Nat) : lenField packet off = lenField (packet.drop off) 0 := by
  have hthere : off + 8 ≤ packet.length ↔ 0 + 8 ≤ (packet.drop off).length := by
    rw [List.length_drop]
    omega
  simp only [lenField, hthere, List.drop_zero]

/-- A payload is missing exactly while its `LEN` field is, or fewer bytes than the field counts follow it (R77, R78). -/
theorem takePayload_eq_none {body : List Byte} :
    takePayload body = none ↔ ∀ len, lenField body 0 = some len → body.length < 8 + len := by
  by_cases hlen : 8 ≤ body.length
  · simp only [takePayload, takeField, lenField, hlen, List.drop_zero, Nat.zero_add, Nat.reduceDiv, if_true,
      Option.some.injEq, forall_eq', List.length_drop]
    split <;> simp <;> omega
  · simp [takePayload, takeField, lenField, hlen]

/-- Format F1 is short of its packet while the `SEED` field is (R75, R76). -/
theorem decodeSeed_eq_incomplete {w : Nat} {make : BitVec w → Instr} {body : List Byte} :
    decodeSeed w make body = .incomplete ↔ body.length < w / 8 := by
  rw [decodeSeed, ← takeField_eq_none]
  cases takeField w body <;> simp

/-- Format F2 is short of its packet while the payload is (R75, R77). -/
theorem decodeData_eq_incomplete {make : List Byte → Instr} {body : List Byte} :
    decodeData make body = .incomplete ↔ ∀ len, lenField body 0 = some len → body.length < 8 + len := by
  rw [decodeData, ← takePayload_eq_none]
  cases takePayload body <;> simp

/-- Format F3 is short of its packet while the `SEED` field or the payload is (R75 to R77). -/
theorem decodeSeedData_eq_incomplete {w : Nat} {make : BitVec w → List Byte → Instr} {body : List Byte} :
    decodeSeedData w make body = .incomplete ↔
      ∀ len, lenField body (w / 8) = some len → body.length < w / 8 + (8 + len) := by
  rw [decodeSeedData, takeField, lenField_drop]
  split_ifs with h
  · simp only [decodeData_eq_incomplete, List.length_drop]
    exact forall₂_congr fun len _ => by omega
  · have hnone : lenField (body.drop (w / 8)) 0 = none := if_neg (by rw [List.length_drop]; omega)
    simp [hnone]

/-! ## Packets that are not all there -/

/-- The bytes do not reach the end of the packet they begin: its length is not determined yet, or is more than they are. -/
def ShortOfPacket (bytes : List Byte) : Prop := ∀ n, packetLength bytes = some n → bytes.length < n

/-- The `LEN` field's offset counts the header byte. -/
theorem lenField_cons (h : Byte) (body : List Byte) (off : Nat) :
    lenField (h :: body) (1 + off) = lenField body off := by
  rw [lenField_drop, Nat.add_comm, List.drop_succ_cons, ← lenField_drop]

/-- The operands of a well-formed header are incomplete exactly while its packet is (R79, R80). -/
theorem decodeBody_eq_incomplete {op : Operation} {w : Width} {body : List Byte} :
    decodeBody op w body = .incomplete ↔ ShortOfPacket (headerByte op w :: body) := by
  have hdata : (∀ len, lenField body 0 = some len → body.length < 8 + len) ↔
      ∀ n, (lenField (headerByte op w :: body) 1).map (9 + ·) = some n → body.length + 1 < n := by
    have hfield := lenField_cons (headerByte op w) body 0
    simp only [Nat.add_zero] at hfield
    simp only [hfield, Option.map_eq_some_iff, forall_exists_index, and_imp, forall_apply_eq_imp_iff₂]
    exact forall₂_congr fun len _ => by omega
  have hseedData : (∀ len, lenField body (seedSize w) = some len → body.length < seedSize w + (8 + len)) ↔
      ∀ n, (lenField (headerByte op w :: body) (1 + seedSize w)).map (9 + seedSize w + ·) = some n →
        body.length + 1 < n := by
    simp only [lenField_cons, Option.map_eq_some_iff, forall_exists_index, and_imp, forall_apply_eq_imp_iff₂]
    exact forall₂_congr fun len _ => by omega
  rw [ShortOfPacket, packetLength, decodeHeader_eq_ok.mpr rfl]
  cases op
  case init => cases w <;> simp [decodeBody, decodeSeed_eq_incomplete, formatOf, seedSize] <;> omega
  case write => cases w <;> exact decodeData_eq_incomplete.trans hdata
  case cksum => cases w <;> exact decodeSeedData_eq_incomplete.trans hseedData
  all_goals cases w <;> simp [decodeBody, formatOf]

/-- The parser finds nothing exactly while the bytes are short of a packet (R79, R80). -/
theorem decode_eq_incomplete {bytes : List Byte} : decode bytes = .incomplete ↔ ShortOfPacket bytes := by
  cases bytes with
  | nil => simp [decode, ShortOfPacket, packetLength]
  | cons h body =>
    cases hd : decodeHeader h with
    | error e => simp [decode, hd, ShortOfPacket, packetLength]
    | ok p => rw [decodeHeader_eq_ok.mp hd, decode_headerByte_cons, decodeBody_eq_incomplete]

/-! ## Bytes that arrive later -/

/-- A whole command packet stays the same packet (R78, R245). -/
theorem decode_append_of_command {bytes rest : List Byte} {i : Instr} (h : decode bytes = .command i rest)
    (more : List Byte) : decode (bytes ++ more) = .command i (rest ++ more) := by
  obtain ⟨hw, rfl⟩ := decode_eq_command.mp h
  rw [List.append_assoc, decode_encode_append hw]

/-- A malformed header byte stays one (R74, R80). -/
theorem decode_append_of_malformed {bytes rest : List Byte} {e : CmdError} (h : decode bytes = .malformed e rest)
    (more : List Byte) : decode (bytes ++ more) = .malformed e (rest ++ more) := by
  obtain ⟨b, rfl, he⟩ := decode_eq_malformed.mp h
  exact decode_eq_malformed.mpr ⟨b, rfl, he⟩

/-- Bytes that fall short of the end of a command's packet are no packet (R80). -/
theorem decode_of_part_of_encode {i : Instr} {bytes missing : List Byte} (hw : i.wellFormed = true) (hm : missing ≠ [])
    (h : bytes ++ missing = encode i) : decode bytes = .incomplete := by
  have hwhole : decode (bytes ++ missing) = .command i [] := by
    rw [h, ← List.append_nil (encode i), decode_encode_append hw]
  cases hd : decode bytes with
  | incomplete => rfl
  | malformed e rest =>
    rw [decode_append_of_malformed hd] at hwhole
    cases hwhole
  | command j rest =>
    rw [decode_append_of_command hd, Decoded.command.injEq] at hwhole
    exact absurd (List.append_eq_nil_iff.mp hwhole.2).2 hm

/-! ## Header bytes -/

/-- A header byte of 0x10 or more has a `RSV` field that is not zero (R71, R211). -/
theorem headerRsv_ne_zero {h : Byte} (hge : 0x10 ≤ h.toNat) : headerRsv h ≠ 0 := by
  intro hzero
  have hfield := congrArg BitVec.toNat hzero
  simp only [headerRsv, BitVec.extractLsb'_toNat, Nat.shiftRight_eq_div_pow, BitVec.ofNat_eq_ofNat, BitVec.toNat_ofNat,
    Nat.zero_mod] at hfield
  have := h.isLt
  omega

end Sys2Proof
end

section
/-! SUPPORT. The response of a step and the responses of a run: one for each packet, of its form (R84 to R87, R249). -/

namespace Sys2Proof.Machine

/-- Everything a step that records no fault can be: the error response of a malformed header byte, or a command's response
with as many value bytes as the command has (R84 to R86). -/
theorem step_eq_next_of_fault_eq_none {s t : State} (h : step s = .next t) (hf : t.fault = none) :
    (∃ e rest, decode s.cmdIn = .malformed e rest ∧ t = raiseCmdError s e) ∨
      (∃ i rest value, decode s.cmdIn = .command i rest ∧ value.length = i.valueLength ∧
        t = afterCommand i value { s with cmdIn := rest }) := by
  obtain ⟨what, -, -, rfl⟩ | ⟨b, rest, e, -, hc, he, ht⟩ | ⟨i, rest, hr, hd, hx⟩ := step_cases h
  · cases hf
  · exact .inl ⟨e, rest, decode_eq_malformed.mpr ⟨b, hc, he⟩, ht⟩
  · obtain ⟨value, hl, hv⟩ := exec_of_buffersInRange (s := { s with cmdIn := rest }) hr.2.1 i
    rw [hv] at hx
    exact .inr ⟨i, rest, value, hd, hl, by cases hx; rfl⟩

/-! ## The bytes of a run -/

/-- The bytes sent since power-on: those consumed and those that wait. -/
def System.arrived (y : System) : List Byte := y.consumed ++ y.core.cmdIn

/-- A turn of the engine only moves bytes from the command port to those consumed (R21). -/
theorem arrived_engine {y : System} (hb : y.core.BuffersInRange) : (systemStep y .engine).arrived = y.arrived := by
  rw [systemStep]
  cases h : step y.core with
  | fault why => rfl
  | refused why => rfl
  | next t =>
    obtain ⟨front, packet, hc, -, -⟩ := engineStepped_result hb h
    show (engineStepped y t).consumed ++ t.cmdIn = y.consumed ++ y.core.cmdIn
    rw [engineStepped_consumed_of_append hc, hc, List.append_assoc]

/-- In a run without a power-on reset the bytes that have arrived are those before it and those sent in it. -/
theorem arrived_systemRun {y : System} {events : List Event} (hb : y.core.BuffersInRange) (hfree : ResetFree events) :
    (systemRun y events).arrived = y.arrived ++ sentBytes events := by
  induction events generalizing y with
  | nil => exact (List.append_nil _).symm
  | cons e later ih =>
    obtain ⟨he, hlater⟩ := not_or.mp (mt List.mem_cons.mpr hfree)
    rw [systemRun, List.foldl_cons, ← systemRun, ih (systemStep_buffersInRange hb e) hlater]
    cases e with
    | engine => rw [arrived_engine hb, sentBytes]
    | host a =>
      cases a with
      | send bytes => simp [System.arrived, systemStep, sentBytes]
      | take =>
        obtain ⟨-, hcmdIn, hconsumed⟩ := systemStep_take_frame y
        rw [System.arrived, hcmdIn, hconsumed, sentBytes, System.arrived]
      | powerOnReset => exact absurd rfl he

/-! ## The responses of a run -/

/-- R27 (a) of the contexts of a final state. -/
def RunResult.BuffersInRange (r : RunResult) : Prop :=
  r.ctx32.buf.length < blockSize .w32 ∧ r.ctx64.buf.length < blockSize .w64

/-- One more packet adds one response, of the packet's form, and keeps the buffers in range (R84 to R86). -/
theorem RunResult.BuffersInRange.after {r : RunResult} (hb : r.BuffersInRange) (packet : Except CmdError Instr) :
    (r.after packet).BuffersInRange ∧
      ∃ response, (r.after packet).responses = r.responses ++ [response] ∧ answers packet response = true := by
  cases packet with
  | error e => exact ⟨hb, _, rfl, beq_self_eq_true _⟩
  | ok i =>
    obtain ⟨value, hv, hl⟩ := commandValue_ok (s := { State.reset with ctx32 := r.ctx32, ctx64 := r.ctx64 }) hb i
    rw [RunResult.after, hv]
    exact ⟨⟨ctxAfter32_buf_lt hb.1 i, ctxAfter64_buf_lt hb.2 i⟩, _, rfl, by simp [answers, statusByte, hl]⟩

/-- A sequence of packets adds one response for each, in order and of its form (R84, R87). -/
theorem RunResult.BuffersInRange.foldl_after {r : RunResult} (hb : r.BuffersInRange)
    (packets : List (Except CmdError Instr)) :
    ∃ responses, (packets.foldl RunResult.after r).responses = r.responses ++ responses ∧
      List.Forall₂ (fun packet response => answers packet response = true) packets responses := by
  induction packets generalizing r with
  | nil => exact ⟨[], (List.append_nil _).symm, .nil⟩
  | cons packet later ih =>
    obtain ⟨hafter, response, hresponse, hanswers⟩ := hb.after packet
    obtain ⟨responses, hresponses, hall⟩ := ih hafter
    exact ⟨response :: responses, by rw [List.foldl_cons, hresponses, hresponse]; simp, .cons hanswers hall⟩

/-- The responses of the packets of a stream from power-on answer them one by one. -/
theorem resultOf_answers (stream : List Byte) :
    List.Forall₂ (fun packet response => answers packet response = true) (packetsOf stream)
      (resultOf stream).responses := by
  have hstart : System.start.result.BuffersInRange := ⟨by decide, by decide⟩
  obtain ⟨responses, hresponses, hall⟩ := hstart.foldl_after (packetsOf stream)
  rwa [resultOf, hresponses]

/-! ## The first step after reset -/

theorem reset_ready : State.reset.Ready := ⟨rfl, by decide, queueFull_eq_false.mpr Config.rspDepth_pos⟩

/-- The step after reset with one whole packet placed on the command port is its command in the reset state. -/
theorem step_reset_withFetchWord {i : Instr} {nbits w : Nat} (hd : decode (tablePacket nbits w) = .command i []) :
    step (State.reset.withFetchWord nbits w) = exec i State.reset := by
  have hport : decode (State.reset.withFetchWord nbits w).cmdIn = .command i [] :=
    (congrArg decode (List.append_nil _)).trans hd
  rw [step, step_command (s := State.reset.withFetchWord nbits w) reset_ready hport]
  rfl

end Sys2Proof.Machine
end

section
/-! Encoding and decoding: O1 to O8, O11, O14, O57 and O59. -/

namespace Sys2Proof.Proofs
open Sys2Proof Sys2Proof.Machine

/-- Settles O3: the header byte selects the operand fields, and each field is read back from its own bytes. -/
theorem decodeUndoesEncode : Obligations.DecodeUndoesEncode := fun _ rest hw => decode_encode_append hw rest

/-- Settles O4: a field that is taken is the bytes of its word. -/
theorem encodeUndoesDecode : Obligations.EncodeUndoesDecode := fun _ _ _ h => decode_eq_command.mp h

/-- Settles O5: the parser finds the length the packet has, and its format gives that. -/
theorem packetLengthsByFormat : Obligations.PacketLengthsByFormat := by
  intro rest i hw
  refine ⟨packetLength_encode_append hw rest, ?_⟩
  cases i <;> simp [encode] <;> omega

/-- Settles O6: short of a packet nothing is found; a command takes its packet, a malformed header its one byte. -/
theorem parserConsumesThePacketLength : Obligations.ParserConsumesThePacketLength := by
  refine fun bytes => ⟨decode_eq_incomplete, fun i rest hd => ?_, fun e rest hd => ?_⟩
  · obtain ⟨hw, rfl⟩ := decode_eq_command.mp hd
    exact ⟨(encode i).length, packetLength_encode_append hw rest, by simp, List.drop_left.symm⟩
  · obtain ⟨b, rfl, he⟩ := decode_eq_malformed.mp hd
    exact ⟨packetLength_malformed he rest, rfl, rfl⟩

/-- Settles O7: a packet is decoded from its own bytes. -/
theorem laterBytesDoNotChangeAPacket : Obligations.LaterBytesDoNotChangeAPacket :=
  fun _ more => ⟨fun _ _ hd => decode_append_of_command hd more, fun _ _ hd => decode_append_of_malformed hd more⟩

/-- Settles O11: a part of a packet is none, since what a whole one decodes to no later byte changes. -/
theorem partialPacketHoldsTheEngine : Obligations.PartialPacketHoldsTheEngine := by
  intro s i missing hr hw hm h
  refine ⟨by rw [step, fetch_of_incomplete hr (decode_of_part_of_encode hw hm h)], ?_⟩
  have hd : decode (hostSend s missing).cmdIn = .command i [] := by
    rw [hostSend_cmdIn, h, ← List.append_nil (encode i), decode_encode_append hw]
  exact stepRunsTheDecodedCommand (hostSend s missing) i [] hr hd

/-- Settles O14: an error response is its status byte alone, and a command's value has the command's length. -/
theorem stepEmitsExactlyOneResponse : Obligations.StepEmitsExactlyOneResponse := by
  intro s t h hf
  obtain ⟨e, rest, hd, rfl⟩ | ⟨i, rest, value, hd, hl, rfl⟩ := step_eq_next_of_fault_eq_none h hf
  · cases e with
    | errOpcode => exact .inr (.inl ⟨rest, hd, rfl⟩)
    | errReserved => exact .inr (.inr ⟨rest, hd, rfl⟩)
  · exact .inl ⟨i, rest, value, hd, hl, rfl⟩

/-- Settles O57: with nothing waiting the bytes consumed are those sent, and the responses are those of their packets. -/
theorem everyConsumedStreamIsFinished : Obligations.EveryConsumedStreamIsFinished := by
  intro events hfree hempty
  have hsound := sound_systemRun_start events
  have hconsumed : (systemRun System.start events).consumed = sentBytes events := by
    have harrived := arrived_systemRun sound_start.buffersInRange hfree
    rwa [System.arrived, hempty, List.append_nil] at harrived
  have hresponses : (systemRun System.start events).responses = (resultOf (sentBytes events)).responses := by
    rw [← hconsumed, ← systemRun_start_result events, System.result]
  refine runStatus_eq_finished.mpr ⟨hsound.fault, hsound.buffersInRange, streamDone_iff.mpr ⟨hconsumed, hempty, ?_⟩⟩
  rw [hresponses]
  exact resultOf_answers _

/-- Settles O1: the `RSV` field is looked at first, and each of the sixteen headers without it has its own outcome. -/
theorem everyHeaderByteHasItsOutcome : Obligations.EveryHeaderByteHasItsOutcome :=
  ⟨fun _ hge => if_pos (headerRsv_ne_zero hge), rfl, rfl, decodeHeader_init32, decodeHeader_init64, decodeHeader_reset32,
    decodeHeader_reset64, decodeHeader_write32, decodeHeader_write64, decodeHeader_sum32, decodeHeader_sum64,
    decodeHeader_cksum32, decodeHeader_cksum64, decodeHeader_bsize32, decodeHeader_bsize64, decodeHeader_dsize32,
    decodeHeader_dsize64⟩

/-- Settles O2: the encoder writes the bytes out, and they decode because they are the packets it writes. -/
theorem writtenOutPacketsEncodeAndDecode : Obligations.WrittenOutPacketsEncodeAndDecode := by
  have hpacket : ∀ {i bytes}, i.wellFormed = true → encode i = bytes →
      encode i = bytes ∧ decode bytes = .command i [] :=
    fun hw henc => ⟨henc, decode_eq_command.mpr ⟨hw, by rw [henc, List.append_nil]⟩⟩
  exact ⟨hpacket rfl (by decide), hpacket rfl (by decide), hpacket rfl (by decide), hpacket rfl (by decide)⟩

/-- Settles O8: each row's packet decodes to its command with nothing after it, so it runs in the reset state. -/
theorem tableRowsDecodeAndRun : Obligations.TableRowsDecodeAndRun := by
  intro row hrow
  have hd : decode (tablePacket 8 row.1) = .command row.2 [] := by
    revert row
    decide
  exact ⟨by rw [decodeTableWord, hd], step_reset_withFetchWord hd⟩

/-- Settles O59: a statement's bytes are the packets of its expansion, one after the other. -/
theorem pseudoInstructionsExpand : Obligations.PseudoInstructionsExpand := by
  refine ⟨fun _ => List.flatMap_singleton .., fun _ => List.flatMap_singleton .., fun _ => List.flatMap_singleton ..,
    fun _ => List.flatMap_singleton .., fun seed data => ?_, fun seed data => ?_, fun _ => rfl⟩
  all_goals simp [assemble, asmExpand]

end Sys2Proof.Proofs
end

section
/-!
SUPPORT. Rotation, the rounds and the blocks of the datapath: the rotation is the library's left rotation, a round is a
composition of bijections, and a block reads its four words (R102 to R105, R108, R109).
-/

namespace Sys2Proof.Machine

variable {w : Nat}

/-! ## Rotation -/

/-- The rotation unit is the left rotation (R102). -/
theorem rotl_eq_rotateLeft {r : Nat} (x : BitVec w) (hr : r < w) : rotl x r = x.rotateLeft r :=
  (BitVec.rotateLeft_eq_rotateLeftAux_of_lt hr).symm

/-- Rotating to the right by the same count undoes the rotation. -/
theorem rotateRight_rotl {r : Nat} (x : BitVec w) (hr : r < w) : (rotl x r).rotateRight r = x := by
  rw [rotl_eq_rotateLeft x hr]
  ext i hi
  simp only [BitVec.getElem_rotateRight, BitVec.getElem_rotateLeft, Nat.mod_eq_of_lt hr]
  split
  · rw [dif_neg (by omega)]
    congr 1
    omega
  · rw [dif_pos (by omega)]
    congr 1
    omega

theorem rotl_bijective {r : Nat} (hr : r < w) : Function.Bijective fun x : BitVec w => rotl x r :=
  have hinv : Function.LeftInverse (fun x : BitVec w => x.rotateRight r) (rotl · r) := fun x => rotateRight_rotl x hr
  Finite.injective_iff_bijective.mp hinv.injective

/-! ## Rounds -/

/-- An odd word has an inverse: its number has no factor in common with 2^w. -/
theorem isUnit_of_odd {p : BitVec w} (hw : w ≠ 0) (h : Odd p.toNat) : IsUnit p := by
  have hcop : p.toNat.Coprime (2 ^ w) := (Nat.coprime_two_right.mpr h).pow_right w
  obtain ⟨m, -, hm⟩ := Nat.exists_mul_mod_eq_one_of_coprime hcop (Nat.one_lt_two_pow hw)
  refine .of_mul_eq_one (BitVec.ofNat w m) (BitVec.eq_of_toNat_eq ?_)
  rw [BitVec.toNat_mul, BitVec.toNat_ofNat, Nat.mul_mod_mod, hm]
  exact (Nat.mod_eq_of_lt (Nat.one_lt_two_pow hw)).symm

/-- A round with odd multipliers is a bijection of its word: a product, a sum, a rotation and a product (R103). -/
theorem round_bijective {p q : BitVec w} {r : Nat} (v : BitVec w) (hp : Odd p.toNat) (hr : r < w) (hq : Odd q.toNat) :
    Function.Bijective fun x => rotl (v + x * p) r * q :=
  have hw : w ≠ 0 := Nat.ne_zero_of_lt hr
  (IsUnit.isUnit_iff_mulRight_bijective.mp (isUnit_of_odd hw hq)).comp <| (rotl_bijective hr).comp <|
    (AddGroup.addLeft_bijective v).comp (IsUnit.isUnit_iff_mulRight_bijective.mp (isUnit_of_odd hw hp))

/-- The merge round folds in the lane rounded from 0 (R105). -/
theorem mergeRound64_eq_round64_zero (h v : U64) : mergeRound64 h v = (h ^^^ round64 0 v) * P64_1 + P64_4 := by
  rw [mergeRound64, round64, zero_add]

/-! ## Blocks -/

/-- A block in range reads its four words, and rounds each lane with its own (R108, R109). -/
theorem mixBlock_reads_words (round : BitVec w → BitVec w → BitVec w) (v : Lanes w) {b : List Byte} {o : Nat}
    (h : o + 4 * (w / 8) ≤ b.length) :
    ∃ x1 x2 x3 x4, memRead w b o = .ok x1 ∧ memRead w b (o + w / 8) = .ok x2 ∧
      memRead w b (o + 2 * (w / 8)) = .ok x3 ∧ memRead w b (o + 3 * (w / 8)) = .ok x4 ∧
      mixBlock round v b o = .ok
        { v1 := round v.v1 x1, v2 := round v.v2 x2, v3 := round v.v3 x3, v4 := round v.v4 x4 } := by
  have h1 := memRead_ok (w := w) (i := o) (src := b) (by omega)
  have h2 := memRead_ok (w := w) (i := o + w / 8) (src := b) (by omega)
  have h3 := memRead_ok (w := w) (i := o + 2 * (w / 8)) (src := b) (by omega)
  have h4 := memRead_ok (w := w) (i := o + 3 * (w / 8)) (src := b) (by omega)
  refine ⟨_, _, _, _, h1, h2, h3, h4, ?_⟩
  rw [mixBlock, h1, h2, h3, h4]
  rfl

end Sys2Proof.Machine

namespace Sys2Proof.Proofs
open Sys2Proof Sys2Proof.Machine

/-- Settles O29: a block's four words are in range, and it rounds each lane with its own. -/
theorem blockMixesEachLaneWithItsWord : Obligations.BlockMixesEachLaneWithItsWord :=
  ⟨fun v _ _ h => mixBlock_reads_words round32 v h, fun v _ _ h => mixBlock_reads_words round64 v h⟩

/-- Settles O35: the rotation is the left rotation, and the multipliers of both rounds are odd. -/
theorem roundIsABijectionOfItsWord : Obligations.RoundIsABijectionOfItsWord :=
  ⟨fun v x => by rw [round32, rotl_eq_rotateLeft _ (by decide)]; rfl,
    fun v => round_bijective v (by decide) (by decide) (by decide),
    fun v => round_bijective v (by decide) (by decide) (by decide)⟩

/-- Settles O34: each formula has the left rotation in it, and `mergeRound64` a round from 0. -/
theorem roundsAndTailStepsFollowTheirRules : Obligations.RoundsAndTailStepsFollowTheirRules := by
  refine ⟨fun x r _ hr => rotl_eq_rotateLeft x hr, fun x r _ hr => rotl_eq_rotateLeft x hr, fun v x => ?round,
    mergeRound64_eq_round64_zero, fun h w => ?word32, fun h c => ?byte32, fun h w => ?long64, fun h w => ?word64,
    fun h c => ?byte64⟩
  case round => rw [round64, rotl_eq_rotateLeft _ (by decide)]; rfl
  case word32 => rw [tailWord32, rotl_eq_rotateLeft _ (by decide)]; rfl
  case byte32 => rw [tailByte32, rotl_eq_rotateLeft _ (by decide)]; rfl
  case long64 => rw [tailLong64, rotl_eq_rotateLeft _ (by decide)]; rfl
  case word64 => rw [tailWord64, rotl_eq_rotateLeft _ (by decide)]; rfl
  case byte64 => rw [tailByte64, rotl_eq_rotateLeft _ (by decide)]; rfl

end Sys2Proof.Proofs
end

section
/-!
SUPPORT. The fold over every whole chunk of the bytes, and the bytes after those chunks: what a chunk at the front does
to both; the absorb and tail loops as such folds (R110, R119); and the mixers (R113, R122, R123). `mixBlocks` and
`afterBlocks` are the fold and the rest at the block size; the tails need them at 8, 4 and 1 bytes too.
-/

namespace Sys2Proof.Machine

variable {α : Type} {n : Nat} {f : α → List Byte → α} {a : α} {chunk d : List Byte}

/-- A function folded over every whole chunk of `n` bytes. -/
def foldWhole (n : Nat) (f : α → List Byte → α) (a : α) (d : List Byte) : α := foldChunks n f (d.length / n) a d

/-- The bytes after the last whole chunk of `n` bytes. -/
def afterWhole (n : Nat) (d : List Byte) : List Byte := d.drop (n * (d.length / n))

theorem foldWhole_of_lt (h : d.length < n) : foldWhole n f a d = a := by
  rw [foldWhole, Nat.div_eq_of_lt h, foldChunks]

theorem afterWhole_of_lt (h : d.length < n) : afterWhole n d = d := by
  rw [afterWhole, Nat.div_eq_of_lt h, Nat.mul_zero, List.drop_zero]

/-- A chunk at the front makes one whole chunk more. -/
theorem length_div_of_chunk_append (hn : 0 < n) (h : chunk.length = n) (d : List Byte) :
    (chunk ++ d).length / n = d.length / n + 1 := by
  rw [List.length_append, h, Nat.add_div_left _ hn]

theorem foldWhole_append (hn : 0 < n) (h : chunk.length = n) :
    foldWhole n f a (chunk ++ d) = foldWhole n f (f a chunk) d := by
  rw [foldWhole, length_div_of_chunk_append hn h, foldChunks, List.take_left' h, List.drop_left' h, foldWhole]

theorem afterWhole_append (hn : 0 < n) (h : chunk.length = n) : afterWhole n (chunk ++ d) = afterWhole n d := by
  rw [afterWhole, length_div_of_chunk_append hn h, Nat.mul_succ, Nat.add_comm, ← List.drop_drop, List.drop_left' h,
    afterWhole]

/-! ## Words, byte by byte -/

theorem leBytes_one (b : Byte) : leBytes 1 b = [b] := by simp [leBytes]

theorem leWord_one (b : Byte) : leWord 8 [b] = b := by simp [leWord]

/-- The word of four bytes is the bytes, first byte lowest (R52). -/
theorem leWord_four_bytes (b0 b1 b2 b3 : Byte) : leWord 32 [b0, b1, b2, b3] = b3 ++ b2 ++ b1 ++ b0 := by
  conv_rhs => rw [← leWord_leBytes 4 (b3 ++ b2 ++ b1 ++ b0)]
  simp only [leBytes_append_byte, leBytes_one]

/-- The word of eight bytes is the bytes, first byte lowest (R52). -/
theorem leWord_eight_bytes (b0 b1 b2 b3 b4 b5 b6 b7 : Byte) :
    leWord 64 [b0, b1, b2, b3, b4, b5, b6, b7] = b7 ++ b6 ++ b5 ++ b4 ++ b3 ++ b2 ++ b1 ++ b0 := by
  conv_rhs => rw [← leWord_leBytes 8 (b7 ++ b6 ++ b5 ++ b4 ++ b3 ++ b2 ++ b1 ++ b0)]
  simp only [leBytes_append_byte, leBytes_one]

/-! ## Absorbing -/

theorem absorb32_eq_foldWhole (v : Lanes 32) (d : List Byte) :
    absorb32 v d = .ok (foldWhole 16 (mixChunk round32) v d, 16 * (d.length / 16)) := absorb32_ok v d

theorem absorb64_eq_foldWhole (v : Lanes 64) (d : List Byte) :
    absorb64 v d = .ok (foldWhole 32 (mixChunk round64) v d, 32 * (d.length / 32)) := absorb64_ok v d

/-! ## Tails -/

/-- A tail step on a chunk that holds exactly its word (R114 to R118). -/
def tailChunk {w : Nat} (n : Nat) (mix : BitVec w → BitVec n → BitVec w) (h : BitVec w) (chunk : List Byte) :
    BitVec w := mix h (leWord n chunk)

/-- A fold over 8-byte words takes the eight bytes at the front first. -/
theorem foldWhole_eight_cons {w : Nat} (mix : BitVec w → U64 → BitVec w) (h : BitVec w) (b0 b1 b2 b3 b4 b5 b6 b7 : Byte)
    (t : List Byte) :
    foldWhole 8 (tailChunk 64 mix) h (b0 :: b1 :: b2 :: b3 :: b4 :: b5 :: b6 :: b7 :: t) =
      foldWhole 8 (tailChunk 64 mix) (mix h (b7 ++ b6 ++ b5 ++ b4 ++ b3 ++ b2 ++ b1 ++ b0)) t := by
  rw [← leWord_eight_bytes]
  exact foldWhole_append (chunk := [b0, b1, b2, b3, b4, b5, b6, b7]) (by decide) rfl

/-- A fold over 4-byte words takes the four bytes at the front first. -/
theorem foldWhole_four_cons {w : Nat} (mix : BitVec w → U32 → BitVec w) (h : BitVec w) (b0 b1 b2 b3 : Byte)
    (t : List Byte) :
    foldWhole 4 (tailChunk 32 mix) h (b0 :: b1 :: b2 :: b3 :: t) =
      foldWhole 4 (tailChunk 32 mix) (mix h (b3 ++ b2 ++ b1 ++ b0)) t := by
  rw [← leWord_four_bytes]
  exact foldWhole_append (chunk := [b0, b1, b2, b3]) (by decide) rfl

/-- A fold over bytes takes the front byte first. -/
theorem foldWhole_byte_cons {w : Nat} (mix : BitVec w → Byte → BitVec w) (h : BitVec w) (c : Byte) (t : List Byte) :
    foldWhole 1 (tailChunk 8 mix) h (c :: t) = foldWhole 1 (tailChunk 8 mix) (mix h c) t := by
  conv_rhs => rw [← leWord_one c]
  exact foldWhole_append (chunk := [c]) (by decide) rfl

theorem afterWhole_eight_cons (b0 b1 b2 b3 b4 b5 b6 b7 : Byte) (t : List Byte) :
    afterWhole 8 (b0 :: b1 :: b2 :: b3 :: b4 :: b5 :: b6 :: b7 :: t) = afterWhole 8 t :=
  afterWhole_append (chunk := [b0, b1, b2, b3, b4, b5, b6, b7]) (by decide) rfl

theorem afterWhole_four_cons (b0 b1 b2 b3 : Byte) (t : List Byte) :
    afterWhole 4 (b0 :: b1 :: b2 :: b3 :: t) = afterWhole 4 t :=
  afterWhole_append (chunk := [b0, b1, b2, b3]) (by decide) rfl

/-- A tail loop folds over the whole chunks of the bytes from its offset on, and ends where those after them begin. -/
theorem tailLoop_eq_foldWhole {w n k i : Nat} {t rest : List Byte} (mix : BitVec w → BitVec n → BitVec w)
    (hk : n / 8 = k) (hpos : 0 < k) (hi : i ≤ t.length) (hrest : t.drop i = rest) :
    ∃ j ≤ t.length, t.drop j = afterWhole k rest ∧
      ∀ h, chunkLoop k (tailAt n mix) t t.length h i = .ok (foldWhole k (tailChunk n mix) h rest, j) := by
  subst hrest
  refine ⟨_, loopEnd_le k t.length i hi, by rw [afterWhole, List.drop_drop, List.length_drop], fun h => ?_⟩
  rw [tailLoop_ok hk hpos hi, foldWhole, List.length_drop]
  rfl

/-- The XXH32 tail is its words' fold, then the fold of the bytes after them (R119). -/
theorem tail32_eq_foldWhole (h : U32) (t : List Byte) :
    tail32 h t = .ok
      (foldWhole 1 (tailChunk 8 tailByte32) (foldWhole 4 (tailChunk 32 tailWord32) h t) (afterWhole 4 t)) := by
  obtain ⟨i, hi, hafter, hwords⟩ := tailLoop_eq_foldWhole tailWord32 (k := 4) rfl (by decide) t.length.zero_le rfl
  obtain ⟨_, -, -, hbytes⟩ := tailLoop_eq_foldWhole tailByte32 (k := 1) rfl (by decide) hi hafter
  rw [tail32, hwords]
  simp only [bind, Except.bind, hbytes]
  rfl

/-- The XXH64 tail is its 8-byte words' fold, then the folds of the words and of the bytes after them (R119). -/
theorem tail64_eq_foldWhole (h : U64) (t : List Byte) :
    tail64 h t = .ok
      (foldWhole 1 (tailChunk 8 tailByte64)
        (foldWhole 4 (tailChunk 32 tailWord64) (foldWhole 8 (tailChunk 64 tailLong64) h t) (afterWhole 8 t))
        (afterWhole 4 (afterWhole 8 t))) := by
  obtain ⟨i, hi, hafter, hlongs⟩ := tailLoop_eq_foldWhole tailLong64 (k := 8) rfl (by decide) t.length.zero_le rfl
  obtain ⟨j, hj, hafter, hwords⟩ := tailLoop_eq_foldWhole tailWord64 (k := 4) rfl (by decide) hi hafter
  obtain ⟨_, -, -, hbytes⟩ := tailLoop_eq_foldWhole tailByte64 (k := 1) rfl (by decide) hj hafter
  rw [tail64, hlongs]
  simp only [bind, Except.bind, hwords, hbytes]
  rfl

/-- Below four bytes the XXH32 tail is its bytes' fold. -/
theorem tail32_of_lt_four (h : U32) {t : List Byte} (ht : t.length < 4) :
    tail32 h t = .ok (foldWhole 1 (tailChunk 8 tailByte32) h t) := by
  rw [tail32_eq_foldWhole, foldWhole_of_lt ht, afterWhole_of_lt ht]

/-- Below eight bytes the XXH64 tail is its words' fold, then the fold of the bytes after them. -/
theorem tail64_of_lt_eight (h : U64) {t : List Byte} (ht : t.length < 8) :
    tail64 h t = .ok
      (foldWhole 1 (tailChunk 8 tailByte64) (foldWhole 4 (tailChunk 32 tailWord64) h t) (afterWhole 4 t)) := by
  rw [tail64_eq_foldWhole, foldWhole_of_lt ht, afterWhole_of_lt ht]

/-- Below four bytes the XXH64 tail is its bytes' fold. -/
theorem tail64_of_lt_four (h : U64) {t : List Byte} (ht : t.length < 4) :
    tail64 h t = .ok (foldWhole 1 (tailChunk 8 tailByte64) h t) := by
  rw [tail64_of_lt_eight h (by omega), foldWhole_of_lt ht, afterWhole_of_lt ht]

/-! ## The mixers -/

/-- The XXH32 mixer is the avalanche of the tail of the start value (R122). -/
theorem mix32_of_tail32 {v : Lanes 32} {seed h : U32} {n : U64} {t : List Byte}
    (ht : tail32 (start32 v seed n) t = .ok h) : mix32 v seed n t = .ok (avalanche32 h) := by
  rw [mix32, ht]
  rfl

/-- The XXH64 mixer is the avalanche of the tail of the start value (R123). -/
theorem mix64_of_tail64 {v : Lanes 64} {seed h n : U64} {t : List Byte}
    (ht : tail64 (start64 v seed n) t = .ok h) : mix64 v seed n t = .ok (avalanche64 h) := by
  rw [mix64, ht]
  rfl

/-- Below one block the XXH32 start value comes from the seed (R113). -/
theorem start32_of_lt (v : Lanes 32) (seed : U32) {n : U64} (hn : n.toNat < blockSize .w32) :
    start32 v seed n = seed + P32_5 + n.setWidth 32 := by
  rw [start32, if_neg (Nat.not_le.mpr hn)]

/-- Below one block the XXH64 start value comes from the seed (R113). -/
theorem start64_of_lt (v : Lanes 64) (seed : U64) {n : U64} (hn : n.toNat < blockSize .w64) :
    start64 v seed n = seed + P64_5 + n := by
  rw [start64, if_neg (Nat.not_le.mpr hn)]

end Sys2Proof.Machine

namespace Sys2Proof.Proofs
open Sys2Proof Sys2Proof.Machine

/-- Settles O30: absorbing folds over the whole blocks, and a block at the front is the fold's first. -/
theorem absorbTakesBlocksInOrder : Obligations.AbsorbTakesBlocksInOrder := by
  refine ⟨fun v d h => ?less32, fun v b d hb => ?block32, fun v d h => ?less64, fun v b d hb => ?block64⟩
  case less32 => rw [absorb32_eq_foldWhole, foldWhole_of_lt h, Nat.div_eq_of_lt h]
  case less64 => rw [absorb64_eq_foldWhole, foldWhole_of_lt h, Nat.div_eq_of_lt h]
  case block32 =>
    have hblock : block32 v b 0 = .ok (mixChunk round32 v b) := by
      rw [block32_ok (by omega), List.drop_zero, List.take_of_length_le hb.le]
    refine ⟨_, _, _, hblock, absorb32_eq_foldWhole _ d, ?_⟩
    rw [absorb32_eq_foldWhole, foldWhole_append (by decide) hb, length_div_of_chunk_append (by decide) hb, Nat.mul_succ,
      Nat.add_comm]
  case block64 =>
    have hblock : block64 v b 0 = .ok (mixChunk round64 v b) := by
      rw [block64_ok (by omega), List.drop_zero, List.take_of_length_le hb.le]
    refine ⟨_, _, _, hblock, absorb64_eq_foldWhole _ d, ?_⟩
    rw [absorb64_eq_foldWhole, foldWhole_append (by decide) hb, length_div_of_chunk_append (by decide) hb, Nat.mul_succ,
      Nat.add_comm]

/-- Settles O31: four bytes at the front are the first chunk of the words' fold; below four there are only bytes. -/
theorem tailTakesWordsThenBytes32 : Obligations.TailTakesWordsThenBytes32 := by
  refine ⟨fun h => ?none, fun h b0 b1 b2 b3 t => ?word, fun h c t ht => ?byte⟩
  case none => rw [tail32_of_lt_four h (by decide), foldWhole_of_lt (by decide)]
  case word => rw [tail32_eq_foldWhole, foldWhole_four_cons, afterWhole_four_cons, tail32_eq_foldWhole]
  case byte =>
    have hlt : (c :: t).length < 4 := Nat.succ_lt_succ ht
    rw [tail32_of_lt_four h hlt, foldWhole_byte_cons, tail32_of_lt_four _ (Nat.lt_succ_of_lt ht)]

/-- Settles O32: eight bytes at the front are the first chunk of the 8-byte words' fold, below eight four are the first
chunk of the words' fold, and below four there are only bytes. -/
theorem tailTakesLongsThenWordsThenBytes64 : Obligations.TailTakesLongsThenWordsThenBytes64 := by
  refine ⟨fun h => ?none, fun h b0 b1 b2 b3 b4 b5 b6 b7 t => ?long, fun h b0 b1 b2 b3 t ht => ?word,
    fun h c t ht => ?byte⟩
  case none => rw [tail64_of_lt_four h (by decide), foldWhole_of_lt (by decide)]
  case long => rw [tail64_eq_foldWhole, foldWhole_eight_cons, afterWhole_eight_cons, tail64_eq_foldWhole]
  case word =>
    have hlt : (b0 :: b1 :: b2 :: b3 :: t).length < 8 := Nat.add_lt_add_right ht 4
    rw [tail64_of_lt_eight h hlt, foldWhole_four_cons, afterWhole_four_cons, tail64_of_lt_eight _ (by omega)]
  case byte =>
    have hlt : (c :: t).length < 4 := Nat.succ_lt_succ ht
    rw [tail64_of_lt_four h hlt, foldWhole_byte_cons, tail64_of_lt_four _ (Nat.lt_succ_of_lt ht)]

/-- Settles O33: a mixer is the avalanche of the tail, which answers for every start value; below a block the start
value is of the seed and the length alone. -/
theorem mixersFollowTheirRules : Obligations.MixersFollowTheirRules := by
  refine ⟨fun v seed n t => ?mix32, fun v seed n t => ?mix64, fun v v' seed n t hn => ?seed32,
    fun v v' seed n t hn => ?seed64⟩
  case mix32 => exact ⟨_, tail32_ok _ t, _, _, rfl, rfl, mix32_of_tail32 (tail32_ok _ t)⟩
  case mix64 =>
    obtain ⟨h, ht⟩ := tail64_ok (start64 v seed n) t
    exact ⟨h, ht, _, _, rfl, rfl, mix64_of_tail64 ht⟩
  case seed32 => rw [mix32, start32_of_lt v seed hn, mix32, start32_of_lt v' seed hn]
  case seed64 => rw [mix64, start64_of_lt v seed hn, mix64, start64_of_lt v' seed hn]

end Sys2Proof.Proofs
end

section
/-!
SUPPORT. A command whose value is known answers it; one that writes no context does nothing else (R140 to R148, R163, R164,
R190, R191).
-/

namespace Sys2Proof.Machine

section
variable {i : Instr} {s : State} {value : List Byte}

/-- A command that has a value answers it, and leaves what it makes of its contexts (R84, R86). -/
theorem exec_of_commandValue (h : commandValue s.ctx32 s.ctx64 i = .ok value) :
    exec i s = .next (afterCommand i value s) := by
  rw [exec_eq_conclude, h]
  rfl

theorem not_writes_of_writesContext_eq_false (W : Width) (h : i.writesContext = false) : ¬ Writes W i := by
  rintro ⟨-, hw⟩
  rw [h] at hw
  cases hw

/-- After a command that writes no context there is one response more, and that is all (R24, R25, R192). -/
theorem afterCommand_eq_respond (h : i.writesContext = false) (value : List Byte) (s : State) :
    afterCommand i value s = respond s .ok value := by
  rw [afterCommand, ctxAfter32_of_not_writes (not_writes_of_writesContext_eq_false .w32 h),
    ctxAfter64_of_not_writes (not_writes_of_writesContext_eq_false .w64 h)]

/-- A command that writes no context and has a value only answers it. -/
theorem exec_eq_respond (hw : i.writesContext = false) (hv : commandValue s.ctx32 s.ctx64 i = .ok value) :
    exec i s = .next (respond s .ok value) := by
  rw [exec_of_commandValue hv, afterCommand_eq_respond hw]

end

/-- `RESET32` is `INIT32` of the stored seed (R142). -/
theorem exec_reset32 (s : State) : exec .reset32 s = exec (.init32 s.ctx32.seed) s := rfl

/-- `RESET64` is `INIT64` of the stored seed (R143). -/
theorem exec_reset64 (s : State) : exec .reset64 s = exec (.init64 s.ctx64.seed) s := rfl

/-- The commands after a first one see only its outcome (R63). -/
theorem execAll_cons_congr {i j : Instr} {s : State} (h : exec i s = exec j s) (later : List Instr) :
    execAll (i :: later) s = execAll (j :: later) s := by
  rw [execAll, execAll, h]

end Sys2Proof.Machine
end

section
/-! The context commands and the queries: O17, O18, O19, O39. -/

namespace Sys2Proof.Proofs
open Sys2Proof Sys2Proof.Machine

/-- Settles O39: with buffers in range a command has a value, and one that writes no context only answers it. -/
theorem queriesOnlyAddAResponse : Obligations.QueriesOnlyAddAResponse := by
  intro i s hb hw
  obtain ⟨value, hv, -⟩ := commandValue_ok hb i
  exact ⟨0x00 :: value, exec_eq_respond hw hv⟩

/-- Settles O17: `INIT` has an empty value in every state, and leaves the new context of its seed. -/
theorem initConstructsTheContext : Obligations.InitConstructsTheContext := by
  refine ⟨fun seed s => ?init32, fun seed => ⟨rfl, rfl⟩, fun seed => ⟨rfl, rfl⟩, fun seed s => ?init64⟩
  case init32 => exact exec_of_commandValue (i := .init32 seed) rfl
  case init64 => exact exec_of_commandValue (i := .init64 seed) rfl

/-- Settles O18: `RESET` has the outcome of `INIT` of the stored seed, and the commands after it see only that. -/
theorem resetRestoresTheStoredSeed : Obligations.ResetRestoresTheStoredSeed := by
  refine ⟨fun s => ?reset32, fun s => ?reset64, rfl, rfl, fun s later => ?later⟩
  case reset32 => exact exec_of_commandValue (i := .reset32) rfl
  case reset64 => exact exec_of_commandValue (i := .reset64) rfl
  case later => exact ⟨execAll_cons_congr (exec_reset32 s) later, execAll_cons_congr (exec_reset64 s) later⟩

/-- Settles O19: the size queries have their constants as values in every state, and write no context. -/
theorem sizeQueriesAnswerTheirConstants : Obligations.SizeQueriesAnswerTheirConstants := by
  intro s
  have hanswer : ∀ {i value}, i.writesContext = false → commandValue s.ctx32 s.ctx64 i = .ok value →
      exec i s = .next { s with rspOut := s.rspOut ++ [0x00 :: value] } := exec_eq_respond
  exact ⟨hanswer rfl rfl, hanswer rfl rfl, hanswer rfl rfl, hanswer rfl rfl, rfl, rfl, rfl, rfl⟩

end Sys2Proof.Proofs
end

section
/-!
SUPPORT. The streaming commands: a `WRITE` that completes no block, `SUM` of a context and of a context's history, and a
stream written in chunks (R160 to R165, R167).
-/

namespace Sys2Proof.Machine

/-! ## `WRITE` without a complete block -/

section
variable {w : Nat} {W : Width} {mix : Lanes w → List Byte → Lanes w} {ctx : Ctx w}

/-- Bytes that complete no block are appended, and the lanes stay (R160, R161). -/
theorem written_of_lt {d : List Byte} (h : ctx.buf.length + d.length < blockSize W) :
    written W mix ctx d =
      { ctx with totalLength := ctx.totalLength + lenOf d, buf := ctx.buf ++ d, phase := .accumulating } := by
  rw [← List.length_append] at h
  rw [written, mixBlocks_of_lt h, afterBlocks_of_lt h]

/-- An empty `WRITE` changes only the ghost phase (R162, R31). -/
theorem written_nil (h : ctx.buf.length < blockSize W) :
    written W mix ctx [] = { ctx with phase := .accumulating } := by
  have hcount : ctx.totalLength + lenOf [] = ctx.totalLength := BitVec.add_zero _
  rw [written_of_lt (d := []) h, hcount, List.append_nil]

end

theorem afterCommand_write32 (d value : List Byte) (s : State) :
    afterCommand (.write32 d) value s = respond { s with ctx32 := written .w32 (mixChunk round32) s.ctx32 d } .ok value :=
  rfl

theorem afterCommand_write64 (d value : List Byte) (s : State) :
    afterCommand (.write64 d) value s = respond { s with ctx64 := written .w64 (mixChunk round64) s.ctx64 d } .ok value :=
  rfl

/-! ## `SUM` -/

/-- With its buffer in range a context's digest is the mixer's, of the context's own fields (R163, R164). -/
theorem sumCtx_of_lt {w : Nat} {W : Width} {ctx : Ctx w}
    {mix : Lanes w → BitVec w → U64 → List Byte → Except InvariantFault (BitVec w)}
    (h : ctx.buf.length < blockSize W) :
    sumCtx W mix ctx = mix ctx.v ctx.seed ctx.totalLength ctx.buf := by
  rw [sumCtx_eq, if_pos h]

theorem sumCtx32_ok {ctx : Ctx 32} (h : ctx.buf.length < blockSize .w32) :
    ∃ digest, sumCtx .w32 mix32 ctx = .ok digest := by
  rw [sumCtx_of_lt h]
  exact mix32_ok _ _ _ _

theorem sumCtx64_ok {ctx : Ctx 64} (h : ctx.buf.length < blockSize .w64) :
    ∃ digest, sumCtx .w64 mix64 ctx = .ok digest := by
  rw [sumCtx_of_lt h]
  exact mix64_ok _ _ _ _

/-- `SUM32` of a context that has a digest only answers it (R163). -/
theorem exec_sum32 {s : State} {digest : U32} (h : sumCtx .w32 mix32 s.ctx32 = .ok digest) :
    exec .sum32 s = .next (respond s .ok (beBytes 4 digest)) :=
  exec_eq_respond rfl (by rw [commandValue, h]; rfl)

/-- `SUM64` of a context that has a digest only answers it (R164). -/
theorem exec_sum64 {s : State} {digest : U64} (h : sumCtx .w64 mix64 s.ctx64 = .ok digest) :
    exec .sum64 s = .next (respond s .ok (beBytes 8 digest)) :=
  exec_eq_respond rfl (by rw [commandValue, h]; rfl)

/-- `CKSUM32` only answers the one-shot digest (R190). -/
theorem exec_cksum32 {seed : U32} {d : List Byte} {digest : U32} (h : checksum32 seed d = .ok digest) (s : State) :
    exec (.cksum32 seed d) s = .next (respond s .ok (beBytes 4 digest)) :=
  exec_eq_respond rfl (by rw [commandValue, h]; rfl)

/-- `CKSUM64` only answers the one-shot digest (R191). -/
theorem exec_cksum64 {seed : U64} {d : List Byte} {digest : U64} (h : checksum64 seed d = .ok digest) (s : State) :
    exec (.cksum64 seed d) s = .next (respond s .ok (beBytes 8 digest)) :=
  exec_eq_respond rfl (by rw [commandValue, h]; rfl)

/-! ## Nothing writes a context on a quiet way -/

theorem Quiet.ctx32_eq {s u : State} (h : Quiet .w32 s u) : u.ctx32 = s.ctx32 := by
  induction h with
  | refl s => rfl
  | command i hi hx _ ih => rw [ih, exec_ctx32_of_not_writes hx hi]
  | error e _ ih => rw [ih, raiseCmdError_ctx32]
  | ports cmdIn rspOut _ ih => exact ih

theorem Quiet.ctx64_eq {s u : State} (h : Quiet .w64 s u) : u.ctx64 = s.ctx64 := by
  induction h with
  | refl s => rfl
  | command i hi hx _ ih => rw [ih, exec_ctx64_of_not_writes hx hi]
  | error e _ ih => rw [ih, raiseCmdError_ctx64]
  | ports cmdIn rspOut _ ih => exact ih

/-! ## Commands in sequence -/

section
variable {i : Instr} {s t : State}

theorem execAll_cons_of_next (h : exec i s = .next t) (later : List Instr) :
    execAll (i :: later) s = execAll later t := by
  rw [execAll, h]

theorem execAll_singleton (h : exec i s = .next t) : execAll [i] s = .next t := by
  rw [execAll_cons_of_next h, execAll]

/-- The commands after some that ran begin in the state those left (R63). -/
theorem execAll_append_of_next {before : List Instr} (h : execAll before s = .next t) (after : List Instr) :
    execAll (before ++ after) s = execAll after t := by
  induction before generalizing s with
  | nil => cases h; rfl
  | cons i before ih =>
    obtain ⟨m, hm⟩ := exists_exec_eq_next i s
    rw [execAll_cons_of_next hm] at h
    rw [List.cons_append, execAll_cons_of_next hm, ih h]

/-- `WRITE`s of chunks, one after the other: what each `WRITE` extends by its payload is extended by the chunks' bytes,
and each answers its own count. -/
theorem execAll_writes {write : List Byte → Instr} {P : State → List Byte → Prop}
    (hwrite : ∀ {s S}, P s S → ∀ d, ∃ t, exec (write d) s = .next t ∧ P t (S ++ d) ∧
      t.rspOut = s.rspOut ++ [0x00 :: beBytes 8 (lenOf d)])
    {S : List Byte} (h : P s S) (chunks : List (List Byte)) :
    ∃ t, execAll (chunks.map write) s = .next t ∧ P t (S ++ chunks.flatten) ∧
      t.rspOut = s.rspOut ++ chunks.map fun c => 0x00 :: beBytes 8 (lenOf c) := by
  induction chunks generalizing s S with
  | nil => exact ⟨s, rfl, by simpa using h, by simp⟩
  | cons d chunks ih =>
    obtain ⟨m, hm, hP, hrsp⟩ := hwrite h d
    obtain ⟨t, ht, hP', hrsp'⟩ := ih hP
    refine ⟨t, by rw [List.map_cons, execAll_cons_of_next hm, ht], ?_, ?_⟩
    · rwa [List.flatten_cons, ← List.append_assoc]
    · rw [hrsp', hrsp, List.map_cons, List.append_assoc, List.singleton_append]

end

/-! ## A stream of a seed -/

/-- CTX32 has this seed and is what the payloads `S` make of it (R23, R27, R28). -/
structure Streaming32 (seed : U32) (s : State) (S : List Byte) : Prop where
  seed_eq : s.ctx32.seed = seed
  streams : Streams32 s.ctx32 S

/-- CTX64 has this seed and is what the payloads `S` make of it (R23, R27, R28). -/
structure Streaming64 (seed : U64) (s : State) (S : List Byte) : Prop where
  seed_eq : s.ctx64.seed = seed
  streams : Streams64 s.ctx64 S

section
variable {s : State} {S : List Byte}

theorem streaming32_init32 (seed : U32) (s : State) : Streaming32 seed (afterCommand (.init32 seed) [] s) [] :=
  ⟨rfl, streams32_iff_follows.mpr (follows_newCtx seed)⟩

theorem streaming64_init64 (seed : U64) (s : State) : Streaming64 seed (afterCommand (.init64 seed) [] s) [] :=
  ⟨rfl, streams64_iff_follows.mpr (follows_newCtx seed)⟩

/-- `WRITE32` extends the stream by its payload and answers its count. -/
theorem Streaming32.exec_write32 {seed : U32} (h : Streaming32 seed s S) (d : List Byte) :
    ∃ t, exec (.write32 d) s = .next t ∧ Streaming32 seed t (S ++ d) ∧
      t.rspOut = s.rspOut ++ [0x00 :: beBytes 8 (lenOf d)] :=
  ⟨_, Machine.exec_write32 (lengthLaw_of_streams32 h.streams).buf_lt d,
    ⟨h.seed_eq, streams32_iff_follows.mpr ((streams32_iff_follows.mp h.streams).written d)⟩, rfl⟩

/-- `WRITE64` extends the stream by its payload and answers its count. -/
theorem Streaming64.exec_write64 {seed : U64} (h : Streaming64 seed s S) (d : List Byte) :
    ∃ t, exec (.write64 d) s = .next t ∧ Streaming64 seed t (S ++ d) ∧
      t.rspOut = s.rspOut ++ [0x00 :: beBytes 8 (lenOf d)] :=
  ⟨_, Machine.exec_write64 (lengthLaw_of_streams64 h.streams).buf_lt d,
    ⟨h.seed_eq, streams64_iff_follows.mpr ((streams64_iff_follows.mp h.streams).written d)⟩, rfl⟩

/-- The digest of a stream's context is the one-shot digest of the stream (R167). -/
theorem Streaming32.sumCtx_eq_checksum32 {seed : U32} (h : Streaming32 seed s S) :
    sumCtx .w32 mix32 s.ctx32 = checksum32 seed S := by
  obtain ⟨rfl, hs⟩ := h
  rw [sumCtx_of_lt (lengthLaw_of_streams32 hs).buf_lt, checksum32, hs.lanes, hs.buffer, hs.total]
  rfl

/-- The digest of a stream's context is the one-shot digest of the stream (R167). -/
theorem Streaming64.sumCtx_eq_checksum64 {seed : U64} (h : Streaming64 seed s S) :
    sumCtx .w64 mix64 s.ctx64 = checksum64 seed S := by
  obtain ⟨rfl, hs⟩ := h
  rw [sumCtx_of_lt (lengthLaw_of_streams64 hs).buf_lt, checksum64, hs.lanes, hs.buffer, hs.total]
  rfl

end

/-- `INIT32`, a `WRITE32` of each chunk and `SUM32` answer 0x00, the chunks' counts and the digest of all the bytes. -/
theorem execAll_stream32 {seed digest : U32} {chunks : List (List Byte)} (h : checksum32 seed chunks.flatten = .ok digest)
    (s : State) : ∃ t, execAll (.init32 seed :: (chunks.map Instr.write32 ++ [.sum32])) s = .next t ∧
      t.rspOut = s.rspOut ++
        ([0x00] :: (chunks.map (fun c => 0x00 :: beBytes 8 (lenOf c)) ++ [0x00 :: beBytes 4 digest])) := by
  have hinit : exec (.init32 seed) s = .next (afterCommand (.init32 seed) [] s) := exec_of_commandValue rfl
  obtain ⟨t, hwrites, hstream, hrsp⟩ := execAll_writes Streaming32.exec_write32 (streaming32_init32 seed s) chunks
  have hsum := exec_sum32 (hstream.sumCtx_eq_checksum32.trans h)
  refine ⟨_, by rw [execAll_cons_of_next hinit, execAll_append_of_next hwrites, execAll_singleton hsum], ?_⟩
  simp [hrsp, statusByte]

/-- `INIT64`, a `WRITE64` of each chunk and `SUM64` answer 0x00, the chunks' counts and the digest of all the bytes. -/
theorem execAll_stream64 {seed digest : U64} {chunks : List (List Byte)} (h : checksum64 seed chunks.flatten = .ok digest)
    (s : State) : ∃ t, execAll (.init64 seed :: (chunks.map Instr.write64 ++ [.sum64])) s = .next t ∧
      t.rspOut = s.rspOut ++
        ([0x00] :: (chunks.map (fun c => 0x00 :: beBytes 8 (lenOf c)) ++ [0x00 :: beBytes 8 digest])) := by
  have hinit : exec (.init64 seed) s = .next (afterCommand (.init64 seed) [] s) := exec_of_commandValue rfl
  obtain ⟨t, hwrites, hstream, hrsp⟩ := execAll_writes Streaming64.exec_write64 (streaming64_init64 seed s) chunks
  have hsum := exec_sum64 (hstream.sumCtx_eq_checksum64.trans h)
  refine ⟨_, by rw [execAll_cons_of_next hinit, execAll_append_of_next hwrites, execAll_singleton hsum], ?_⟩
  simp [hrsp, statusByte]

end Sys2Proof.Machine
end

section
/-! The streaming commands: O22, O23, O41, O44. -/

namespace Sys2Proof.Proofs
open Sys2Proof Sys2Proof.Machine

/-- Settles O22: what `WRITE` leaves of a context has the old lanes while the buffered bytes and the payload are less than a
block, and with no payload the old counter and buffer too. -/
theorem shortWriteOnlyAppends : Obligations.ShortWriteOnlyAppends := by
  refine ⟨fun s d h => ?append32, fun s d h => ?append64, fun s h => ?empty32, fun s h => ?empty64⟩
  case append32 => rw [exec_write32 (by omega), afterCommand_write32, written_of_lt h]; rfl
  case append64 => rw [exec_write64 (by omega), afterCommand_write64, written_of_lt h]; rfl
  case empty32 => rw [exec_write32 h, afterCommand_write32, written_nil h]; rfl
  case empty64 => rw [exec_write64 h, afterCommand_write64, written_nil h]; rfl

/-- Settles O23: the mixer answers for every context, and with the buffer in range `SUM` answers what it does. -/
theorem sumAnswersTheContextsDigest : Obligations.SumAnswersTheContextsDigest := by
  refine ⟨fun s h => ?sum32, fun s h => ?sum64, rfl, rfl⟩
  case sum32 =>
    obtain ⟨digest, hd⟩ := sumCtx32_ok h
    exact ⟨digest, (sumCtx_of_lt h).symm.trans hd, exec_sum32 hd⟩
  case sum64 =>
    obtain ⟨digest, hd⟩ := sumCtx64_ok h
    exact ⟨digest, (sumCtx_of_lt h).symm.trans hd, exec_sum64 hd⟩

/-- Settles O41: on a quiet way the context stays as the first `SUM` left it, which is as it found it. -/
theorem sumIsIdempotent : Obligations.SumIsIdempotent := by
  refine ⟨fun s t u h hsum hquiet => ?sum32, fun s t u h hsum hquiet => ?sum64⟩
  case sum32 =>
    obtain ⟨digest, hd⟩ := sumCtx32_ok h
    cases (exec_sum32 hd).symm.trans hsum
    have hctx : u.ctx32 = s.ctx32 := hquiet.ctx32_eq
    exact ⟨_, _, rfl, exec_sum32 (hctx ▸ hd), rfl⟩
  case sum64 =>
    obtain ⟨digest, hd⟩ := sumCtx64_ok h
    cases (exec_sum64 hd).symm.trans hsum
    have hctx : u.ctx64 = s.ctx64 := hquiet.ctx64_eq
    exact ⟨_, _, rfl, exec_sum64 (hctx ▸ hd), rfl⟩

/-- Settles O44: the chunks, however split, leave the context that the history of all their bytes makes, and its digest is
the one-shot digest of that history. -/
theorem chunkedStreamEqualsOneShot : Obligations.ChunkedStreamEqualsOneShot := by
  refine ⟨fun seed chunks s => ?w32, fun seed chunks s => ?w64⟩
  case w32 =>
    obtain ⟨digest, hd⟩ := checksum32_ok seed chunks.flatten
    obtain ⟨t, hrun, hrsp⟩ := execAll_stream32 hd s
    exact ⟨beBytes 4 digest, t, beBytes_length _ _, hrun, hrsp, exec_cksum32 hd⟩
  case w64 =>
    obtain ⟨digest, hd⟩ := checksum64_ok seed chunks.flatten
    obtain ⟨t, hrun, hrsp⟩ := execAll_stream64 hd s
    exact ⟨beBytes 8 digest, t, beBytes_length _ _, hrun, hrsp, exec_cksum64 hd⟩

end Sys2Proof.Proofs
end

section
/-!
SUPPORT. The one-shot commands: the digest as one mixer call, and a sequence of commands whose response queue holds other
responses at its start (R30, R190 to R192).
-/

namespace Sys2Proof.Machine

/-! ## The one-shot digest -/

/-- The one-shot XXH32 digest is the mixer's, of the lanes with the complete blocks absorbed and of the bytes after them
(R190). -/
theorem checksum32_eq_mix32 (seed : U32) (d : List Byte) :
    checksum32 seed d = mix32 (foldChunks 16 (mixChunk round32) (d.length / 16) (init32 seed) d) seed (lenOf d)
      (d.drop (16 * (d.length / 16))) := by
  rw [checksum32, absorb32_ok]
  rfl

/-- The one-shot XXH64 digest is the mixer's, of the lanes with the complete blocks absorbed and of the bytes after them
(R191). -/
theorem checksum64_eq_mix64 (seed : U64) (d : List Byte) :
    checksum64 seed d = mix64 (foldChunks 32 (mixChunk round64) (d.length / 32) (init64 seed) d) seed (lenOf d)
      (d.drop (32 * (d.length / 32))) := by
  rw [checksum64, absorb64_ok]
  rfl

/-- `CKSUM` answers the same packet in every state, and that is all it does (R192). -/
theorem exists_exec_eq_respond_of_cksum {i : Instr} (h : i.operation = .cksum) :
    ∃ value, ∀ s, exec i s = .next (respond s .ok value) := by
  cases i with
  | cksum32 seed data =>
    obtain ⟨digest, hd⟩ := checksum32_ok seed data
    exact ⟨_, exec_cksum32 hd⟩
  | cksum64 seed data =>
    obtain ⟨digest, hd⟩ := checksum64_ok seed data
    exact ⟨_, exec_cksum64 hd⟩
  | _ => cases h

/-! ## Behind other responses -/

/-- A command appends to the response queue, and behind any other responses it appends the same and does the same (R30). -/
theorem exec_with_rspOut {i : Instr} {s t : State} (h : exec i s = .next t) :
    ∃ later, t.rspOut = s.rspOut ++ later ∧
      ∀ queue, exec i { s with rspOut := queue } = .next { t with rspOut := queue ++ later } := by
  obtain ⟨-, -, hcmd, later, hlater⟩ := Proofs.onlyWritersChangeAContext i s t h
  refine ⟨later, hlater, fun queue => ?_⟩
  have hread := Proofs.commandsReadNoPortState i s s.cmdIn queue
  rw [h, mapNext, hlater, List.drop_left, ← hcmd] at hread
  rwa [← hcmd]

/-- A sequence of commands appends to the response queue, and behind any other responses it appends the same and does the
same (R30). -/
theorem execAll_with_rspOut {commands : List Instr} {s t : State} (h : execAll commands s = .next t) :
    ∃ later, t.rspOut = s.rspOut ++ later ∧
      ∀ queue, execAll commands { s with rspOut := queue } = .next { t with rspOut := queue ++ later } := by
  induction commands generalizing s with
  | nil =>
    cases h
    exact ⟨[], (List.append_nil _).symm, fun queue => by rw [execAll, List.append_nil]⟩
  | cons i commands ih =>
    obtain ⟨m, hm⟩ := exists_exec_eq_next i s
    rw [execAll_cons_of_next hm] at h
    obtain ⟨first, hfirst, hi⟩ := exec_with_rspOut hm
    obtain ⟨later, hlater, hcommands⟩ := ih h
    refine ⟨first ++ later, by rw [hlater, hfirst, List.append_assoc], fun queue => ?_⟩
    rw [execAll_cons_of_next (hi queue), hcommands, List.append_assoc]

/-- No sequence of commands stops the engine. -/
theorem exists_execAll_eq_next (commands : List Instr) (s : State) : ∃ t, execAll commands s = .next t := by
  induction commands generalizing s with
  | nil => exact ⟨s, rfl⟩
  | cons i commands ih =>
    obtain ⟨m, hm⟩ := exists_exec_eq_next i s
    rw [execAll_cons_of_next hm]
    exact ih m

end Sys2Proof.Machine
end

section
/-! The one-shot commands: O24, O42. -/

namespace Sys2Proof.Proofs
open Sys2Proof Sys2Proof.Machine

/-- Settles O24: the one-shot digest is the mixer's of the absorbed lanes, it exists for every payload, and `CKSUM` only
answers it. -/
theorem cksumAnswersTheOneShotDigest : Obligations.CksumAnswersTheOneShotDigest := by
  refine ⟨fun seed d s => ?w32, fun seed d s => ?w64, fun seed d => ⟨rfl, ?len32⟩, fun seed d => ⟨rfl, ?len64⟩⟩
  case w32 =>
    obtain ⟨digest, hd⟩ := checksum32_ok seed d
    exact ⟨_, digest, absorb32_ok _ d, (checksum32_eq_mix32 seed d).symm.trans hd, exec_cksum32 hd s⟩
  case w64 =>
    obtain ⟨digest, hd⟩ := checksum64_ok seed d
    exact ⟨_, digest, absorb64_ok _ d, (checksum64_eq_mix64 seed d).symm.trans hd, exec_cksum64 hd s⟩
  case len32 | len64 =>
    simp only [encode, List.length_cons, List.length_append, leBytes_length, encodeData_length]
    omega

/-- Settles O42: `CKSUM` only appends its packet, and behind it the commands after it do and append what they would have
without it. -/
theorem cksumDisturbsNoSequence : Obligations.CksumDisturbsNoSequence := by
  intro before after c s u hc hu
  obtain ⟨m, hm⟩ := exists_execAll_eq_next before s
  obtain ⟨value, hvalue⟩ := exists_exec_eq_respond_of_cksum hc
  rw [execAll_append_of_next hm] at hu
  obtain ⟨later, hlater, hafter⟩ := execAll_with_rspOut hu
  have hw := (execAll_cons_of_next (hvalue m) after).trans (hafter _)
  exact ⟨m, _, _, hm, (execAll_append_of_next hm _).trans hw, rfl, rfl, rfl, later, hlater,
    List.append_assoc _ [_] later⟩

end Sys2Proof.Proofs
end

section
/-!
SUPPORT. The engine's step by what it finds: a recorded fault, a broken context, a malformed header byte or a whole packet
(R210 to R216); and that neither agent clears a recorded fault (R214, R249).
-/

namespace Sys2Proof

/-! ## Malformed header bytes -/

/-- Only `OP` 000 selects no operation (R72). -/
theorem operationOf_eq_none {op : BitVec 3} : operationOf op = none ↔ op = 0 := by
  revert op
  decide

/-- ERR_RESERVED is for a `RSV` field that is not zero, whatever `OP` is (R211, R213). -/
theorem decodeHeader_eq_errReserved {h : Byte} : decodeHeader h = .error .errReserved ↔ headerRsv h ≠ 0 := by
  by_cases hrsv : headerRsv h = 0
  · cases hop : operationOf (headerOp h) <;> simp [decodeHeader, hrsv, hop]
  · exact iff_of_true (if_pos hrsv) hrsv

/-- ERR_OPCODE is for the reserved `OP` where `RSV` is zero (R212, R213). -/
theorem decodeHeader_eq_errOpcode {h : Byte} :
    decodeHeader h = .error .errOpcode ↔ headerRsv h = 0 ∧ headerOp h = 0 := by
  rw [← operationOf_eq_none]
  by_cases hrsv : headerRsv h = 0
  · cases hop : operationOf (headerOp h) <;> simp [decodeHeader, hrsv, hop]
  · simp only [decodeHeader_eq_errReserved.mpr hrsv, hrsv, false_and, Except.error.injEq, reduceCtorEq]

end Sys2Proof

namespace Sys2Proof.Machine

section
variable {s : State}

/-! ## Fetching -/

/-- A recorded fault stops the engine before anything else is looked at (R214, R249). -/
theorem fetch_of_fault {what : InvariantFault} (h : s.fault = some what) : fetch s = .stopped (.invariantFault what) := by
  simp only [fetch, h]

/-- A context that breaks R27 (a) is found before the queue and the parser are looked at (R214; log entry 5). -/
theorem fetch_of_broken {what : InvariantFault} (hf : s.fault = none) (hb : brokenContext s = some what) :
    fetch s = .broken what := by
  simp only [fetch, hf, hb]

theorem fetch_of_malformed {e : CmdError} {rest : List Byte} (hr : s.Ready)
    (hd : decode s.cmdIn = .malformed e rest) : fetch s = .malformed e := by
  obtain ⟨hf, hb, hq⟩ := hr
  simp only [fetch, hf, brokenContext_eq_none.mpr hb, hq, hd, Bool.false_eq_true, if_false]

/-! ## Steps -/

/-- A ready engine answers a malformed header byte by its error (R210). -/
theorem step_of_malformed {e : CmdError} {rest : List Byte} (hr : s.Ready)
    (hd : decode s.cmdIn = .malformed e rest) : step s = .next (raiseCmdError s e) := by
  rw [step, fetch_of_malformed hr hd]

/-- The whole effect of a malformed header byte: it is consumed alone, and its error's status byte is answered (R210). -/
theorem step_of_malformed_header {h : Byte} {rest : List Byte} {e : CmdError} (hr : s.Ready)
    (hc : s.cmdIn = h :: rest) (he : decodeHeader h = .error e) :
    step s = .next { s with cmdIn := rest, rspOut := s.rspOut ++ [[statusByte (.error e)]] } := by
  rw [step_of_malformed hr (decode_eq_malformed.mpr ⟨h, hc, he⟩), raiseCmdError, respond, hc, List.drop_one,
    List.tail_cons]

/-- A ready engine runs a whole command packet to its OK response (R216). -/
theorem step_of_command {i : Instr} {rest : List Byte} (hr : s.Ready) (hd : decode s.cmdIn = .command i rest) :
    ∃ value, step s = .next (afterCommand i value { s with cmdIn := rest }) := by
  obtain ⟨value, -, hv⟩ := exec_of_buffersInRange (s := { s with cmdIn := rest }) hr.2.1 i
  exact ⟨value, by rw [step, step_command hr hd]; exact hv⟩

/-- A response that does not begin with OK's status byte is the one error byte of a malformed header (R84, R85, R213). -/
theorem eq_errorResponse_of_step {t : State} {code : Byte} {value : List Byte} (h : step s = .next t)
    (hrsp : t.rspOut = s.rspOut ++ [code :: value]) (hcode : code ≠ 0x00) :
    ∃ b rest e, s.cmdIn = b :: rest ∧ decodeHeader b = .error e ∧ code = statusByte (.error e) ∧ value = [] := by
  obtain ⟨what, -, rfl⟩ | ⟨-, e, rest, hd, rfl⟩ | ⟨-, i, rest, okValue, -, rfl⟩ := step_eq_next h
  · simp at hrsp
  · obtain ⟨b, hc, he⟩ := decode_eq_malformed.mp hd
    simp only [raiseCmdError_rspOut, List.append_cancel_left_eq, List.cons.injEq, and_true] at hrsp
    exact ⟨b, rest, e, hc, he, hrsp.1.symm, hrsp.2.symm⟩
  · simp only [afterCommand_rspOut, List.append_cancel_left_eq, List.cons.injEq, and_true] at hrsp
    exact absurd hrsp.1.symm hcode

end

/-! ## Recorded faults along a run -/

/-- The host neither records a fault nor clears one (R247; log entry 6 for the power-on reset). -/
theorem hostAct_fault (s : State) (a : HostAction) : (hostAct s a).fault = s.fault := by
  cases a with
  | send bytes => rfl
  | take =>
    cases hq : s.rspOut with
    | nil => simp only [hostAct, hostTake_of_nil hq]
    | cons packet later => simp only [hostAct, hostTake_of_cons hq]
  | powerOnReset => rfl

/-- Neither agent clears a recorded fault: the engine has no step there (R214). -/
theorem systemStep_keeps_fault {y : System} {what : InvariantFault} (h : y.core.fault = some what) (e : Event) :
    (systemStep y e).core.fault = some what := by
  cases e with
  | engine => simpa only [systemStep, step, fetch_of_fault h] using h
  | host a => rw [systemStep_host_core, hostAct_fault, h]

/-! ## Commands on a full buffer -/

/-- A command that finds an invariant fault only records it (R214). -/
theorem exec_of_commandValue_error {i : Instr} {s : State} {what : InvariantFault}
    (h : commandValue s.ctx32 s.ctx64 i = .error what) : exec i s = .next (recordFault s what) := by
  rw [exec_eq_conclude, h, conclude]

/-- `SUM` on a context whose buffer is out of range raises that context's invariant fault. -/
theorem sumCtx_broken {w : Nat} {W : Width} {ctx : Ctx w}
    {mix : Lanes w → BitVec w → U64 → List Byte → Except InvariantFault (BitVec w)}
    (h : blockSize W ≤ ctx.buf.length) : sumCtx W mix ctx = .error (.contextBufferFull W) := by
  rw [sumCtx_eq, if_neg (Nat.not_lt.mpr h)]

end Sys2Proof.Machine
end

section
/-! Exceptions: O10, O13, O16 and O26. -/

namespace Sys2Proof.Proofs
open Sys2Proof Sys2Proof.Machine

/-- Settles O10: the two malformed headers by their fields, and of what a step can do only their answers do not begin
with OK. -/
theorem stepAnswersAMalformedHeader : Obligations.StepAnswersAMalformedHeader := by
  refine ⟨fun s h rest hr hc => ⟨fun hrsv => ?_, fun hrsv hop => ?_⟩, fun s t code value hstep hrsp hcode => ?_⟩
  · exact step_of_malformed_header hr hc (decodeHeader_eq_errReserved.mpr hrsv)
  · exact step_of_malformed_header hr hc (decodeHeader_eq_errOpcode.mpr ⟨hrsv, hop⟩)
  · obtain ⟨b, rest, e, hc, he, rfl, rfl⟩ := eq_errorResponse_of_step hstep hrsp hcode
    refine ⟨b, rest, hc, rfl, ?_⟩
    cases e with
    | errOpcode => exact .inr ⟨rfl, decodeHeader_eq_errOpcode.mp he⟩
    | errReserved => exact .inl ⟨rfl, decodeHeader_eq_errReserved.mp he⟩

/-- Settles O13: the fetch looks for a recorded fault and then for a broken context before all else, and no event clears
the record. -/
theorem invariantFaultIsRecordedForGood : Obligations.InvariantFaultIsRecordedForGood := by
  refine ⟨fun s what hf hb => ?_, fun s what h => ?_, fun y what events h => ?_⟩
  · rw [step, fetch_of_broken hf hb]
    rfl
  · rw [step, fetch_of_fault h]
  · exact List.foldlRecOn (motive := fun y => y.core.fault = some what) events systemStep h
      fun _ hy e _ => systemStep_keeps_fault hy e

/-- Settles O16: a whole packet is a malformed header, which is answered its error, or a command, which is answered OK. -/
theorem everyWholePacketIsAccepted : Obligations.EveryWholePacketIsAccepted := by
  intro s hr hwhole
  cases hd : decode s.cmdIn with
  | incomplete => exact absurd hd hwhole
  | malformed e rest => exact ⟨_, _, step_of_malformed hr hd, hr.1, hr.2.1, rfl, fun _ _ h => by cases h⟩
  | command i rest =>
    obtain ⟨value, hstep⟩ := step_of_command hr hd
    exact ⟨_, _, hstep, hr.1, step_buffersInRange hr.2.1 hstep, rfl, fun _ _ _ => ⟨value, rfl⟩⟩

/-- Settles O26: `WRITE` and `SUM` guard their context's buffer before they do anything. -/
theorem commandsOnAFullBufferRecordTheFault : Obligations.CommandsOnAFullBufferRecordTheFault := by
  refine ⟨fun s (h : blockSize .w32 ≤ _) => ⟨fun d => ?write32, ?sum32⟩,
    fun s (h : blockSize .w64 ≤ _) => ⟨fun d => ?write64, ?sum64⟩⟩
  case write32 | write64 =>
    refine exec_of_commandValue_error ?_
    rw [commandValue, checkBuf_error h, Except.map]
  case sum32 | sum64 =>
    refine exec_of_commandValue_error ?_
    rw [commandValue, sumCtx_broken h, Except.map]

end Sys2Proof.Proofs
end

section
/-!
SUPPORT. What each action of the host does, an equation per case (spec/70_reset_and_hazards.md R240, R247).
-/

namespace Sys2Proof.Machine

theorem hostAct_send (s : State) (bytes : List Byte) :
    hostAct s (.send bytes) = { s with cmdIn := s.cmdIn ++ bytes } := rfl

theorem hostAct_take_of_cons {s : State} {packet : List Byte} {later : List (List Byte)}
    (h : s.rspOut = packet :: later) : hostAct s .take = { s with rspOut := later } := by
  rw [hostAct, hostTake_of_cons h]

theorem hostAct_take_of_nil {s : State} (h : s.rspOut = []) : hostAct s .take = s := by
  rw [hostAct, hostTake_of_nil h]

theorem hostAct_powerOnReset (s : State) :
    hostAct s .powerOnReset = { State.reset with fault := s.fault } := rfl

end Sys2Proof.Machine
end

section
/-! The host's reach and the power-on reset: O54 and O55. -/

namespace Sys2Proof.Proofs
open Sys2Proof Sys2Proof.Machine

/-- Settles O54: the send by its equation, the take by whether a response waits. -/
theorem hostReachesOnlyThePorts : Obligations.HostReachesOnlyThePorts :=
  ⟨hostAct_send,
    fun _ _ _ h => ⟨hostTake_of_cons h, hostAct_take_of_cons h⟩,
    fun _ h => ⟨hostTake_of_nil h, hostAct_take_of_nil h⟩⟩

/-- Settles O55: only the fault record can differ from the reset state, and the reset state records none. -/
theorem powerOnResetDiscardsEverything : Obligations.PowerOnResetDiscardsEverything := by
  refine fun s => ⟨hostAct_powerOnReset s, fun hfault => ?_⟩
  rw [hostAct_powerOnReset, hfault]
  rfl

end Sys2Proof.Proofs
end
